-- ==== Sys2Proof/Word.lean ====
section
/-! DEFINITION. The words the machine moves: bytes, 16-bit words and the fields of an instruction
word (spec/00_scope.md R6, R8, R9), and the indices of registers, keys and framebuffer cells. -/

namespace Sys2Proof

/-- One memory cell, one general register or one timer: 8 bits, unsigned (R13, R26). -/
abbrev Byte := BitVec 8

/-- The instruction word, the program counter, the index register, a return address (R16, R17, R18). -/
abbrev Word := BitVec 16

/-- The address immediate `nnn` (R47). -/
abbrev Addr := BitVec 12

/-- A 4-bit field of an instruction word (R47). -/
abbrev Nibble := BitVec 4

/-- The number of a general register V0..VF (R13). -/
abbrev Reg := Fin 16

/-- The code of a key 0..15 (R23). -/
abbrev Key := Fin 16

/-- A framebuffer column 0..63 (R22). -/
abbrev Col := Fin 64

/-- A framebuffer row 0..31 (R22). -/
abbrev Row := Fin 32

/-- VF, the flag register (R15). -/
abbrev regF : Reg := 15

end Sys2Proof
end

