-- ==== Sys2Proof/Syntax.lean ====
section
/-! DEFINITION. The 35 opcodes of base CHIP-8, one constructor per row of spec/opcode_table.json
(spec/30_encoding.md R50). Every encoded field is kept, read or not, so that decoding drops no bit. -/

namespace Sys2Proof

inductive Instr where
  /-- 0nnn, R65. -/
  | sys (nnn : Addr)
  /-- 00E0, R124. -/
  | cls
  /-- 00EE, R66. -/
  | ret
  /-- 1nnn, R67. -/
  | jp (nnn : Addr)
  /-- 2nnn, R68. -/
  | call (nnn : Addr)
  /-- 3xkk, R69. -/
  | seImm (x : Reg) (kk : Byte)
  /-- 4xkk, R70. -/
  | sneImm (x : Reg) (kk : Byte)
  /-- 5xy0, R71. -/
  | seReg (x y : Reg)
  /-- 6xkk, R80. -/
  | ldImm (x : Reg) (kk : Byte)
  /-- 7xkk, R81. -/
  | addImm (x : Reg) (kk : Byte)
  /-- 8xy0, R82. -/
  | ldReg (x y : Reg)
  /-- 8xy1, R83. -/
  | orReg (x y : Reg)
  /-- 8xy2, R84. -/
  | andReg (x y : Reg)
  /-- 8xy3, R85. -/
  | xorReg (x y : Reg)
  /-- 8xy4, R86. -/
  | addReg (x y : Reg)
  /-- 8xy5, R87. -/
  | subReg (x y : Reg)
  /-- 8xy6, R88; y is encoded and not read. -/
  | shr (x y : Reg)
  /-- 8xy7, R89. -/
  | subn (x y : Reg)
  /-- 8xyE, R90; y is encoded and not read. -/
  | shl (x y : Reg)
  /-- 9xy0, R72. -/
  | sneReg (x y : Reg)
  /-- Annn, R112. -/
  | ldI (nnn : Addr)
  /-- Bnnn, R73. -/
  | jpV0 (nnn : Addr)
  /-- Cxkk, R91. -/
  | rnd (x : Reg) (kk : Byte)
  /-- Dxyn, R125. -/
  | drw (x y : Reg) (n : Nibble)
  /-- Ex9E, R137. -/
  | skp (x : Reg)
  /-- ExA1, R138. -/
  | sknp (x : Reg)
  /-- Fx07, R139. -/
  | ldVxDT (x : Reg)
  /-- Fx0A, R140. -/
  | ldVxK (x : Reg)
  /-- Fx15, R141. -/
  | ldDT (x : Reg)
  /-- Fx18, R142. -/
  | ldST (x : Reg)
  /-- Fx1E, R113. -/
  | addI (x : Reg)
  /-- Fx29, R114. -/
  | ldF (x : Reg)
  /-- Fx33, R115. -/
  | ldB (x : Reg)
  /-- Fx55, R116. -/
  | ldStore (x : Reg)
  /-- Fx65, R117. -/
  | ldLoad (x : Reg)
  deriving DecidableEq, Repr

end Sys2Proof
end

