-- ==== Sys2Proof/Decode.lean ====
section
/-! DEFINITION. Decoding and encoding of instruction words: the fields of R47, the layouts of R48,
the opcode map of R50 and the decoder of R51 (spec/30_encoding.md). The decoder is total: a word is
an instruction or is rejected by name as unknown (R52). -/

namespace Sys2Proof

/-! ### Byte order (R33, R47: the high byte comes first) -/

/-- The instruction word of two bytes, `hi` from the lower address. -/
def wordOfBytes (hi lo : Byte) : Word := hi ++ lo

/-- bits 15:8 of a word: the byte at the lower address. -/
def highByte (op : Word) : Byte := op.extractLsb' 8 8

/-- bits 7:0 of a word: the byte at the higher address. -/
def lowByte (op : Word) : Byte := op.extractLsb' 0 8

/-- A word as memory holds it. -/
def bytesOfWord (op : Word) : List Byte := [highByte op, lowByte op]

/-! ### Register numbers -/

def regOfNibble (b : Nibble) : Reg := ⟨b.toNat, b.isLt⟩

def nibbleOfReg (r : Reg) : Nibble := BitVec.ofNat 4 r.val

/-! ### The fields of an instruction word (R47) -/

/-- The family, op[15:12]. -/
def fieldT (op : Word) : Nibble := op.extractLsb' 12 4

/-- x = op[11:8]. -/
def fieldX (op : Word) : Reg := regOfNibble (op.extractLsb' 8 4)

/-- y = op[7:4]. -/
def fieldY (op : Word) : Reg := regOfNibble (op.extractLsb' 4 4)

/-- n = op[3:0]. -/
def fieldN (op : Word) : Nibble := op.extractLsb' 0 4

/-- kk = op[7:0]. -/
def fieldKK (op : Word) : Byte := op.extractLsb' 0 8

/-- nnn = op[11:0]. -/
def fieldNNN (op : Word) : Addr := op.extractLsb' 0 12

/-! ### The decoder (R51) -/

/-- What a word decodes to: one of the 35 opcodes, or `Unknown` (R51, R52). -/
inductive Decoded where
  | instr (i : Instr)
  | unknown (op : Word)
  deriving DecidableEq, Repr

/-- Family 0: CLS, RET, and SYS for every other word. -/
def decode0 (op : Word) : Decoded :=
  if op = 0x00E0#16 then .instr .cls
  else if op = 0x00EE#16 then .instr .ret
  else .instr (.sys (fieldNNN op))

/-- Family 5: only n = 0 is in the set (D3). -/
def decode5 (op : Word) : Decoded :=
  match (fieldN op).toNat with
  | 0x0 => .instr (.seReg (fieldX op) (fieldY op))
  | _ => .unknown op

/-- Family 8: the register to register group, selected by n. -/
def decode8 (op : Word) : Decoded :=
  match (fieldN op).toNat with
  | 0x0 => .instr (.ldReg (fieldX op) (fieldY op))
  | 0x1 => .instr (.orReg (fieldX op) (fieldY op))
  | 0x2 => .instr (.andReg (fieldX op) (fieldY op))
  | 0x3 => .instr (.xorReg (fieldX op) (fieldY op))
  | 0x4 => .instr (.addReg (fieldX op) (fieldY op))
  | 0x5 => .instr (.subReg (fieldX op) (fieldY op))
  | 0x6 => .instr (.shr (fieldX op) (fieldY op))
  | 0x7 => .instr (.subn (fieldX op) (fieldY op))
  | 0xE => .instr (.shl (fieldX op) (fieldY op))
  | _ => .unknown op

/-- Family 9: only n = 0 is in the set (D3). -/
def decode9 (op : Word) : Decoded :=
  match (fieldN op).toNat with
  | 0x0 => .instr (.sneReg (fieldX op) (fieldY op))
  | _ => .unknown op

/-- Family E: the key skips, selected by the whole low byte. -/
def decodeE (op : Word) : Decoded :=
  match (fieldKK op).toNat with
  | 0x9E => .instr (.skp (fieldX op))
  | 0xA1 => .instr (.sknp (fieldX op))
  | _ => .unknown op

/-- Family F: timers, key wait, index and block transfers, selected by the whole low byte. -/
def decodeF (op : Word) : Decoded :=
  match (fieldKK op).toNat with
  | 0x07 => .instr (.ldVxDT (fieldX op))
  | 0x0A => .instr (.ldVxK (fieldX op))
  | 0x15 => .instr (.ldDT (fieldX op))
  | 0x18 => .instr (.ldST (fieldX op))
  | 0x1E => .instr (.addI (fieldX op))
  | 0x29 => .instr (.ldF (fieldX op))
  | 0x33 => .instr (.ldB (fieldX op))
  | 0x55 => .instr (.ldStore (fieldX op))
  | 0x65 => .instr (.ldLoad (fieldX op))
  | _ => .unknown op

/-- R51: the family by the top nibble, then the sub-operation inside the family. The last arm is
family F, the one nibble left. -/
def decode (op : Word) : Decoded :=
  match (fieldT op).toNat with
  | 0x0 => decode0 op
  | 0x1 => .instr (.jp (fieldNNN op))
  | 0x2 => .instr (.call (fieldNNN op))
  | 0x3 => .instr (.seImm (fieldX op) (fieldKK op))
  | 0x4 => .instr (.sneImm (fieldX op) (fieldKK op))
  | 0x5 => decode5 op
  | 0x6 => .instr (.ldImm (fieldX op) (fieldKK op))
  | 0x7 => .instr (.addImm (fieldX op) (fieldKK op))
  | 0x8 => decode8 op
  | 0x9 => decode9 op
  | 0xA => .instr (.ldI (fieldNNN op))
  | 0xB => .instr (.jpV0 (fieldNNN op))
  | 0xC => .instr (.rnd (fieldX op) (fieldKK op))
  | 0xD => .instr (.drw (fieldX op) (fieldY op) (fieldN op))
  | 0xE => decodeE op
  | _ => decodeF op

/-- Why a sequence of bytes begins with no instruction. -/
inductive Reject where
  /-- The first word is not in the defined set (R52). -/
  | unknownInstruction (op : Word)
  /-- Fewer than the two bytes of a word (R53). -/
  | truncated (bytes : List Byte)
  deriving DecidableEq, Repr

/-- Decoding of any bytes: the first instruction and the bytes after it, or a named rejection. -/
def decodeBytes : List Byte → Except Reject (Instr × List Byte)
  | hi :: lo :: rest =>
    match decode (wordOfBytes hi lo) with
    | .instr i => .ok (i, rest)
    | .unknown op => .error (.unknownInstruction op)
  | short => .error (.truncated short)

/-! ### The encoder (R48, R50) -/

/-- Layout A: `tttt nnnn nnnn nnnn`. -/
def layoutA (t : Nibble) (nnn : Addr) : Word := t ++ nnn

/-- Layout XK: `tttt xxxx kkkk kkkk`. Layout X is this one with kk a fixed sub-opcode byte. -/
def layoutXK (t : Nibble) (x : Reg) (kk : Byte) : Word := (t ++ nibbleOfReg x : BitVec 8) ++ kk

/-- Layouts XY and XYN: `tttt xxxx yyyy nnnn`. -/
def layoutXYN (t : Nibble) (x y : Reg) (n : Nibble) : Word :=
  (t ++ nibbleOfReg x : BitVec 8) ++ (nibbleOfReg y ++ n : BitVec 8)

/-- The word of an instruction. -/
def encode : Instr → Word
  | .sys nnn => layoutA 0x0 nnn
  | .cls => 0x00E0#16
  | .ret => 0x00EE#16
  | .jp nnn => layoutA 0x1 nnn
  | .call nnn => layoutA 0x2 nnn
  | .seImm x kk => layoutXK 0x3 x kk
  | .sneImm x kk => layoutXK 0x4 x kk
  | .seReg x y => layoutXYN 0x5 x y 0x0
  | .ldImm x kk => layoutXK 0x6 x kk
  | .addImm x kk => layoutXK 0x7 x kk
  | .ldReg x y => layoutXYN 0x8 x y 0x0
  | .orReg x y => layoutXYN 0x8 x y 0x1
  | .andReg x y => layoutXYN 0x8 x y 0x2
  | .xorReg x y => layoutXYN 0x8 x y 0x3
  | .addReg x y => layoutXYN 0x8 x y 0x4
  | .subReg x y => layoutXYN 0x8 x y 0x5
  | .shr x y => layoutXYN 0x8 x y 0x6
  | .subn x y => layoutXYN 0x8 x y 0x7
  | .shl x y => layoutXYN 0x8 x y 0xE
  | .sneReg x y => layoutXYN 0x9 x y 0x0
  | .ldI nnn => layoutA 0xA nnn
  | .jpV0 nnn => layoutA 0xB nnn
  | .rnd x kk => layoutXK 0xC x kk
  | .drw x y n => layoutXYN 0xD x y n
  | .skp x => layoutXK 0xE x 0x9E
  | .sknp x => layoutXK 0xE x 0xA1
  | .ldVxDT x => layoutXK 0xF x 0x07
  | .ldVxK x => layoutXK 0xF x 0x0A
  | .ldDT x => layoutXK 0xF x 0x15
  | .ldST x => layoutXK 0xF x 0x18
  | .addI x => layoutXK 0xF x 0x1E
  | .ldF x => layoutXK 0xF x 0x29
  | .ldB x => layoutXK 0xF x 0x33
  | .ldStore x => layoutXK 0xF x 0x55
  | .ldLoad x => layoutXK 0xF x 0x65

/-- An instruction's bytes as memory holds them. -/
def encodeBytes (i : Instr) : List Byte := bytesOfWord (encode i)

/-! ### Words numbered as spec/opcode_table.json numbers them -/

/-- The instruction word whose low `nbits` bits are those of `w`; the table's bit 0 is the word's
least significant bit, and one word is the longest instruction (R53). -/
def tableWord (nbits w : Nat) : Word := BitVec.ofNat 16 (w % 2 ^ nbits)

/-- The instruction the decoder reads from the bytes of a word of the opcode table. -/
def decodeTableWord (nbits w : Nat) : Option Instr :=
  match decodeBytes (bytesOfWord (tableWord nbits w)) with
  | .ok (i, _) => some i
  | .error _ => none

end Sys2Proof
end

