-- ==== Sys2Proof/Config.lean ====
section
/-! DEFINITION. The parameters the spec leaves open (spec/00_scope.md R7) and the free values.
An `opaque` constant has no body: no proof can learn its value. -/

namespace Sys2Proof

/-- `STACK_DEPTH`: the most return addresses the call stack holds, or no bound (R7, R18).
R7 asks for a depth of at least 1; `State.inv` says so. -/
inductive StackDepth where
  | unbounded
  | bounded (n : Nat)
  deriving DecidableEq, Repr, Inhabited

/-- `VF_ORDER`: which of the two writes of a flag instruction with x = F is the final one (R7, R78). -/
inductive VfOrder where
  | flagLast
  | resultLast
  deriving DecidableEq, Repr, Inhabited

/-- The named parameters of R7, fixed when the engine is constructed. `RNG` is `Config.rngDraw`. -/
structure Params where
  /-- `STACK_DEPTH` (D6). -/
  stackDepth : StackDepth
  /-- `BLOCK_COPY_INCLUSIVE`: Fx55 and Fx65 move V0..Vx when true, V0..V(x-1) when false (D10). -/
  blockCopyInclusive : Bool
  /-- `VF_ORDER` (D7). -/
  vfOrder : VfOrder
  /-- `FONT`: the contents of 0x000..0x04F at construction (D27). -/
  font : Vector Byte 80
  deriving DecidableEq, Repr

/-- Free value: the byte the n-th RND draws from the hidden random source (R29, D26). Nothing is
assumed about its distribution or its sequence. UNVERIFIED, safe; log 4. -/
opaque Config.rngDraw : Nat → Byte

/-- The implementation's `BLOCK_COPY_INCLUSIVE`, "not to be resolved by inference" (R7, D10): no
value is chosen. Safe; log 3. -/
opaque Config.blockCopyInclusive : Bool

/-- The implementation's `VF_ORDER`, which the source does not state (R7, D7): no value is chosen.
Safe; log 3. -/
opaque Config.vfOrder : VfOrder

end Sys2Proof
end

