-- ==== Sys2Proof/Machine/Construction.lean ====
section
/-! DEFINITION. The values the engine is constructed with (spec/10_state.md R27, R28;
spec/70_reset_and_hazards.md R170): the default font and the reset values of the scalar registers. -/

namespace Sys2Proof.Machine

/-- The rows of glyphs 0..3 of the default `FONT` (R27). -/
def fontGlyphs0to3 : List Byte :=
  [0xF0, 0x90, 0x90, 0x90, 0xF0] ++ [0x20, 0x60, 0x20, 0x20, 0x70] ++
  [0xF0, 0x10, 0xF0, 0x80, 0xF0] ++ [0xF0, 0x10, 0xF0, 0x10, 0xF0]

/-- The rows of glyphs 4..7 of the default `FONT` (R27). -/
def fontGlyphs4to7 : List Byte :=
  [0x90, 0x90, 0xF0, 0x10, 0x10] ++ [0xF0, 0x80, 0xF0, 0x10, 0xF0] ++
  [0xF0, 0x80, 0xF0, 0x90, 0xF0] ++ [0xF0, 0x10, 0x20, 0x40, 0x40]

/-- The rows of glyphs 8..B of the default `FONT` (R27). -/
def fontGlyphs8toB : List Byte :=
  [0xF0, 0x90, 0xF0, 0x90, 0xF0] ++ [0xF0, 0x90, 0xF0, 0x10, 0xF0] ++
  [0xF0, 0x90, 0xF0, 0x90, 0x90] ++ [0xE0, 0x90, 0xE0, 0x90, 0xE0]

/-- The rows of glyphs C..F of the default `FONT` (R27). -/
def fontGlyphsCtoF : List Byte :=
  [0xF0, 0x80, 0x80, 0x80, 0xF0] ++ [0xE0, 0x90, 0x90, 0x90, 0xE0] ++
  [0xF0, 0x80, 0xF0, 0x80, 0xF0] ++ [0xF0, 0x80, 0xF0, 0x80, 0x80]

/-- The default value of `FONT`, the conventional CHIP-8 table (R27, D27). PRESUMED, unsafe; log 1. -/
def defaultFontBytes : List Byte :=
  fontGlyphs0to3 ++ fontGlyphs4to7 ++ fontGlyphs8toB ++ fontGlyphsCtoF

def defaultFont : Vector Byte 80 := ⟨defaultFontBytes.toArray, by decide⟩

/-- The parameters of the engine that `State.reset` constructs: the spec's default depth 16
(spec/95_test_vectors.md) and default font; the two parameters without a default stay opaque.
DESIGN CHOICE, unsafe; log 3. -/
def Params.atReset : Params where
  stackDepth := .bounded 16
  blockCopyInclusive := Config.blockCopyInclusive
  vfOrder := Config.vfOrder
  font := defaultFont

/-- The entry point after construction, and the origin `load_program` writes from (R28, R37, R164). -/
def programOrigin : Word := 0x200

/-- V0..VF after construction (R28). -/
def resetReg : Byte := 0x00

/-- I after construction (R28, the spec's D16; log 15). -/
def resetIndex : Word := 0x0000

/-- DT and ST after construction (R28, the spec's D16; log 15). -/
def resetTimer : Byte := 0x00

end Sys2Proof.Machine
end

