-- ==== Sys2Proof/Machine/Memory.lean ====
section
/-! DEFINITION. The one address space: 4096 byte cells, 0x000..0xFFF (spec/20_memory.md R31, R32,
R35, R36, R37; spec/10_state.md R26). Memory is a list of cells in one canonical form: addresses
strictly rising, no cell that holds what its address reads as when unlisted. -/

namespace Sys2Proof.Machine

/-- The number of cells (R26). -/
def memorySize : Nat := 0x1000

/-- The cells that differ from what construction left, by rising address. -/
abbrev Memory := List Host.Cell

/-- What an unlisted address reads as: what construction leaves there (R28) with the default font,
the glyph rows at 0x000..0x04F and 0 above (R27, R32). DESIGN CHOICE of the form, safe; log 2. -/
def Memory.initial (a : Nat) : Byte := defaultFontBytes.getD a 0

/-- One byte of memory. -/
def Memory.readByte : Memory → Nat → Byte
  | [], a => Memory.initial a
  | (k, v) :: m, a => if k = a then v else Memory.readByte m a

/-- `v` in front of cells that all lie above `a`, unless `a` reads as `v` without a cell. -/
def Memory.consCell (a : Nat) (v : Byte) (m : Memory) : Memory :=
  if v = Memory.initial a then m else (a, v) :: m

/-- Memory with the byte at `a` replaced; the canonical form is kept. -/
def Memory.writeByte : Memory → Nat → Byte → Memory
  | [], a, v => Memory.consCell a v []
  | (k, w) :: m, a, v =>
    if a < k then Memory.consCell a v ((k, w) :: m)
    else if a = k then Memory.consCell a v m
    else (k, w) :: Memory.writeByte m a v

/-- Cells from `lo` upward: rising, inside memory, none that reads the same when unlisted. -/
def Memory.wfFrom : Nat → Memory → Bool
  | _, [] => true
  | lo, (k, v) :: m =>
    decide (lo ≤ k) && decide (k < memorySize) && (v != Memory.initial k) && Memory.wfFrom (k + 1) m

/-- The canonical form. -/
def Memory.wf (m : Memory) : Bool := Memory.wfFrom 0 m

/-- The `n` bytes at `a`, `a + 1`, … . -/
def Memory.readBytes (m : Memory) (a n : Nat) : List Byte :=
  (List.range n).map fun j => m.readByte (a + j)

/-- The bytes written at `a`, `a + 1`, … in turn. -/
def Memory.writeBytes : Memory → Nat → List Byte → Memory
  | m, _, [] => m
  | m, a, b :: bs => Memory.writeBytes (m.writeByte a b) (a + 1) bs

/-- The big-endian word at `a` (R33). -/
def Memory.readWord (m : Memory) (a : Nat) : Word :=
  wordOfBytes (m.readByte a) (m.readByte (a + 1))

/-- The first of the addresses `a`, …, `a + n - 1` above 0xFFF, in unbounded naturals (R36). -/
def firstOutOfRange (a n : Nat) : Option Nat :=
  ((List.range n).map (a + ·)).find? fun b => decide (0xFFF < b)

/-- `MemRead` of `n` single bytes: the bytes, or the first address out of range (R10, R36). -/
def Memory.checkedRead (m : Memory) (a n : Nat) : Except Nat (List Byte) :=
  match firstOutOfRange a n with
  | some bad => .error bad
  | none => .ok (m.readBytes a n)

/-- `MemRead(a, 2)`: the big-endian word, or the first address out of range (R10, R33, R36). -/
def Memory.checkedReadWord (m : Memory) (a : Nat) : Except Nat Word :=
  match firstOutOfRange a 2 with
  | some bad => .error bad
  | none => .ok (m.readWord a)

/-- `MemWrite` of single bytes: every address is checked before any byte is written (R10, R36, R111). -/
def Memory.checkedWrite (m : Memory) (a : Nat) (bs : List Byte) : Except Nat Memory :=
  match firstOutOfRange a bs.length with
  | some bad => .error bad
  | none => .ok (m.writeBytes a bs)

/-- A load by the host (R164, R165): refused as a whole when it would pass 0xFFF. -/
def Memory.hostLoad (m : Memory) (a : Nat) (bs : List Byte) : Option Memory :=
  if a + bs.length ≤ memorySize then some (m.writeBytes a bs) else none

/-- Memory after construction: all zero, then `FONT` at 0x000 (R170). The 80 bytes cover the whole
default font, so no byte of the default is left under another `FONT`. -/
def Memory.constructed (font : Vector Byte 80) : Memory := Memory.writeBytes [] 0 font.toList

end Sys2Proof.Machine
end

