-- ==== Sys2Proof/Machine/State.lean ====
section
/-! DEFINITION. The state of the engine (spec/10_state.md R13..R30), the run state with its fault
record (R24), the state after construction (R28, R170), and the reasons a step can stop. -/

namespace Sys2Proof.Machine

/-- The kinds of fatal fault (R24, R151). An unknown instruction is no fault (R52). -/
inductive FaultKind where
  | outOfRangeAddress
  | stackOverflow
  | stackUnderflow
  deriving DecidableEq, Repr

/-- What a fault records (R24, R150). -/
structure FaultRecord where
  kind : FaultKind
  /-- The address the faulting instruction word was fetched from. -/
  opPc : Word
  /-- The instruction word; absent for a fault during fetch. -/
  op : Option Word
  /-- The faulting address, an unbounded natural (R8); present only for `outOfRangeAddress`. -/
  addr : Option Nat
  deriving DecidableEq, Repr

/-- The run state (R24). -/
inductive RunState where
  | running
  | awaitingKey (d : Reg)
  | faulted (f : FaultRecord)
  deriving DecidableEq, Repr

/-- The framebuffer, addressed column first: 64 columns of 32 rows (R22). -/
abbrev Grid := Vector (Vector Bool 32) 64

/-- The machine state: the record of spec/10_state.md, and two fields of the model's own,
`draws` (log 4) and `params` (log 3), which no instruction of the spec names. -/
structure State where
  /-- Memory (R26). -/
  mem : Memory
  /-- V0..VF (R13). -/
  regs : Vector Byte 16
  /-- I (R16). -/
  idx : Word
  /-- The program counter (R17). -/
  pc : Word
  /-- The call stack, the top last (R9, R18). -/
  stack : List Word
  /-- DT (R19). -/
  dt : Byte
  /-- ST (R20). -/
  st : Byte
  /-- Whether the last tick signalled sound (R21). -/
  soundActive : Bool
  /-- The framebuffer (R22). -/
  fb : Grid
  /-- The keyboard latch (R23). -/
  keys : Vector Bool 16
  /-- The run state (R24). -/
  run : RunState
  /-- The model's own: how many bytes the hidden random source has given (R29). -/
  draws : Nat
  /-- The model's own: the parameters of R7, constant once constructed. -/
  params : Params
  deriving DecidableEq, Repr

/-- No step ends in a fault: the spec describes what taking each of its faults does to the state
(R150, R152), so a fault is a next state whose `run` is `faulted`. No constructor is needed, and no
run stops this way. DEDUCED, safe; log 5. -/
inductive Fault where
  deriving DecidableEq, Repr

/-- Why the model has no meaning for an instruction. -/
inductive Refusal where
  /-- Raised by `exec` for an instruction whose arm is still rejected by name; no arm is. Safe: a
  refused instruction proves nothing about the hardware. -/
  | notModelled (mnemonic : String)
  deriving DecidableEq, Repr

/-- A new engine with parameters `p` (R28, R170). -/
def State.construct (p : Params) : State where
  mem := Memory.constructed p.font
  regs := Vector.replicate 16 resetReg
  idx := resetIndex
  pc := programOrigin
  stack := []
  dt := resetTimer
  st := resetTimer
  soundActive := false
  fb := Vector.replicate 64 (Vector.replicate 32 false)
  keys := Vector.replicate 16 false
  run := .running
  draws := 0
  params := p

/-- The machine right after reset: reset is construction (R170, R171). -/
def State.reset : State := State.construct Params.atReset

end Sys2Proof.Machine
end

