-- ==== Sys2Proof/Machine/Ops.lean ====
section
/-! DEFINITION. The named operations over registers, the call stack, the framebuffer, the latch and
memory that the meanings share, and taking a fault (spec/60_exceptions.md R150). There is no return
from a fault to stand beside it: the spec has none, and only construction leaves `Faulted`
(R152, R155, R171). -/

namespace Sys2Proof.Machine

/-! ### General registers (R13, R14): none is hard-wired -/

/-- `V[r]`. -/
def State.reg (s : State) (r : Reg) : Byte := s.regs[r]

/-- `V[r] <- v`. -/
def State.setReg (s : State) (r : Reg) (v : Byte) : State :=
  { s with regs := s.regs.set r.val v r.isLt }

/-- `V[j] <- bs[j]` for every j below the length of `bs` (R117). -/
def State.setRegs (s : State) (bs : List Byte) : State :=
  { s with regs := Vector.ofFn fun r : Reg => bs.getD r.val (s.reg r) }

/-! ### Program counter (R17): arithmetic is mod 2^16 -/

def State.setPc (s : State) (target : Word) : State := { s with pc := target }

/-- pc past the word it points at: the advance of fetch (R45) and of a taken skip (R74). -/
def State.advance (s : State) : State := s.setPc (s.pc + 2)

/-- pc advanced once more when the condition holds (R69). -/
def State.skipIf (c : Bool) (s : State) : State := if c then s.advance else s

/-! ### Taking a fault (R150) -/

/-- `run` becomes `Faulted` with the record; pc and everything else keep their values (R150). -/
def State.raise (f : FaultRecord) (s : State) : State := { s with run := .faulted f }

/-- The record of a fault raised while `i` executes. pc is already op_pc + 2 (R45), so the word was
fetched from pc - 2; the word itself is the encoding of `i` (log 14). -/
def State.execFault (k : FaultKind) (i : Instr) (addr : Option Nat) (s : State) : FaultRecord where
  kind := k
  opPc := s.pc - 2
  op := some (encode i)
  addr := addr

/-- The record of a fault during fetch: pc is op_pc, and there is no instruction word (R45, R151). -/
def State.fetchFault (bad : Nat) (s : State) : FaultRecord where
  kind := .outOfRangeAddress
  opPc := s.pc
  op := none
  addr := some bad

/-! ### Memory -/

/-- The instruction word at pc, or the first address out of range (R33, R45). -/
def State.fetch (s : State) : Except Nat Word := s.mem.checkedReadWord s.pc.toNat

/-- Bytes stored at `a` by `i`, or the fault with nothing written (R36, R111, R150). -/
def State.store (i : Instr) (a : Nat) (bs : List Byte) (s : State) : State :=
  match s.mem.checkedWrite a bs with
  | .ok m => { s with mem := m }
  | .error bad => s.raise (s.execFault .outOfRangeAddress i (some bad))

/-- `n` bytes loaded from `a` by `i` and handed to `use`, or the fault with nothing written
(R36, R111, R150). -/
def State.load (i : Instr) (a n : Nat) (use : List Byte → State) (s : State) : State :=
  match s.mem.checkedRead a n with
  | .ok bs => use bs
  | .error bad => s.raise (s.execFault .outOfRangeAddress i (some bad))

/-! ### Call stack (R18): the top is the last entry -/

/-- Whether the stack already holds `STACK_DEPTH` entries (R68). -/
def State.stackFull (s : State) : Bool :=
  match s.params.stackDepth with
  | .unbounded => false
  | .bounded n => s.stack.length == n

/-- `push(a)`. -/
def State.push (a : Word) (s : State) : State := { s with stack := s.stack ++ [a] }

/-- The stack without its last entry. -/
def State.dropTop (s : State) : State := { s with stack := s.stack.dropLast }

/-! ### Framebuffer (R22) -/

/-- The framebuffer with every cell off (R124). -/
def Grid.clear : Grid := Vector.replicate 64 (Vector.replicate 32 false)

/-- `fb[c][r]`. -/
def Grid.cell (g : Grid) (c : Col) (r : Row) : Bool := g[c][r]

/-- `fb[c][r] <- fb[c][r] XOR 1`. -/
def Grid.toggle (g : Grid) (c : Col) (r : Row) : Grid :=
  g.set c.val (g[c].set r.val (!g[c][r]) r.isLt) c.isLt

/-- One lit sprite pixel: the cell is toggled, and a cell that was on is a collision (R123, R125). -/
def Grid.drawPixel (acc : Grid × Bool) (p : Col × Row) : Grid × Bool :=
  (acc.1.toggle p.1 p.2, acc.2 || acc.1.cell p.1 p.2)

/-- All lit pixels of a draw: the framebuffer after it and whether any cell went from on to off,
judged over the whole draw (R123, R125). -/
def Grid.draw (g : Grid) (ps : List (Col × Row)) : Grid × Bool :=
  ps.foldl Grid.drawPixel (g, false)

/-- `fb[c][r]` of the state. -/
def State.cell (s : State) (c : Col) (r : Row) : Bool := s.fb.cell c r

/-! ### Keyboard latch (R23) -/

/-- `keys[k]`. -/
def State.key (s : State) (k : Key) : Bool := s.keys[k]

/-! ### The hidden random source (R29) -/

/-- The byte the next draw gives: a free value. -/
def State.nextDraw (s : State) : Byte := Config.rngDraw s.draws

/-- The state after one draw. -/
def State.countDraw (s : State) : State := { s with draws := s.draws + 1 }

/-! ### Placing an instruction where the next step fetches it -/

/-- `op` in memory at pc, in a running engine. A pc no word can be fetched from is moved to the
program origin first. For `State.withFetchWord`; log 10. -/
def State.placeWord (s : State) (op : Word) : State :=
  let pc := if s.pc.toNat ≤ 0xFFE then s.pc else programOrigin
  { s with pc := pc, run := .running, mem := s.mem.writeBytes pc.toNat (bytesOfWord op) }

end Sys2Proof.Machine
end

