-- ==== Sys2Proof/Machine/Operands.lean ====
section
/-! DEFINITION. The operand forms: index plus offset (spec/42_index_memory.md R110), the register
range of the block transfers (R116, R117), the digits of LD B (R115), the glyph address of LD F
(R114), the key a register names (spec/44_keys_timers.md R135) and the pixels of a sprite
(spec/43_display.md R120, R121). A register operand is `State.reg`; an immediate is the field. -/

namespace Sys2Proof.Machine

/-- The effective address of the j-th byte an instruction moves, I + j, in unbounded naturals
(R8, R110). -/
def State.effectiveAddress (s : State) (j : Nat) : Nat := s.idx.toNat + j

/-- An address immediate in a 16-bit register, zero-extended (R47, R112). -/
def zextAddr (nnn : Addr) : Word := nnn.setWidth 16

/-- A byte in a 16-bit sum, zero-extended (R73, R113). -/
def zextByte (v : Byte) : Word := v.setWidth 16

/-- How many registers Fx55 and Fx65 move: x + 1, or x (R116, R117, D10). -/
def blockCount (p : Params) (x : Reg) : Nat := if p.blockCopyInclusive then x.val + 1 else x.val

/-- V0, …, V(k-1), in the order Fx55 stores them (R116). -/
def State.firstRegs (s : State) (k : Nat) : List Byte := s.regs.toList.take k

/-- Hundreds, tens and units of a byte (R115). -/
def bcdDigits (v : Byte) : List Byte :=
  [BitVec.ofNat 8 (v.toNat / 100), BitVec.ofNat 8 (v.toNat / 10 % 10), BitVec.ofNat 8 (v.toNat % 10)]

/-- The address of the glyph of a digit, 5 × the whole register value, unmasked (R114, D12; log 18). -/
def glyphAddress (v : Byte) : Word := BitVec.ofNat 16 (5 * v.toNat)

/-- `key_pressed(v)`: a key above 15 does not exist and is not pressed (R135, D13; log 19). -/
def State.keyPressed (s : State) (v : Byte) : Bool :=
  if h : v.toNat < 16 then s.key ⟨v.toNat, h⟩ else false

/-- The pixel of column c of a sprite row: the most significant bit is the leftmost (R120). -/
def spriteBit (b : Byte) (c : Nat) : Bool := b.getLsbD (7 - c)

/-- The cell of sprite pixel (c, r) drawn at (x0, y0): wrap-around in both directions (R121). -/
def spriteCell (x0 y0 : Byte) (c r : Nat) : Col × Row :=
  (Fin.ofNat 64 (x0.toNat + c), Fin.ofNat 32 (y0.toNat + r))

/-- The lit cells of row r of a sprite, left to right (R120, R125). -/
def rowCells (x0 y0 : Byte) (r : Nat) (b : Byte) : List (Col × Row) :=
  ((List.range 8).filter (spriteBit b)).map fun c => spriteCell x0 y0 c r

/-- The lit cells of rows r, r + 1, … of a sprite, top to bottom (R125). -/
def spriteCells (x0 y0 : Byte) : Nat → List Byte → List (Col × Row)
  | _, [] => []
  | r, b :: bs => rowCells x0 y0 r b ++ spriteCells x0 y0 (r + 1) bs

end Sys2Proof.Machine
end

