-- ==== Sys2Proof/Machine/Flags.lean ====
section
/-! DEFINITION. Every flag computation: carry, borrow, the bit a shift moves out
(spec/41_alu.md R77, R86..R90), collision (spec/43_display.md R123), and the write of a result and
its flag (R78). The flag register is VF (spec/10_state.md R15). -/

namespace Sys2Proof.Machine

/-- A flag as VF holds it: 0 or 1 (R77). -/
def flagByte (b : Bool) : Byte := if b then 1 else 0

/-- The sum in unbounded naturals, 0..510 (R86). -/
def wideSum (a b : Byte) : Nat := a.toNat + b.toNat

/-- The sum reduced mod 256 (R77). -/
def sumByte (a b : Byte) : Byte := BitVec.ofNat 8 (wideSum a b)

/-- Carry: the unsigned sum exceeds 255 (R86). -/
def carryFlag (a b : Byte) : Bool := decide (wideSum a b > 255)

/-- a - b mod 256, without clamping (R77, R87). -/
def differenceByte (a b : Byte) : Byte := a - b

/-- 1 iff the minuend strictly exceeds the subtrahend (R87, R89). -/
def noBorrowFlag (minuend subtrahend : Byte) : Bool := decide (minuend.toNat > subtrahend.toNat)

/-- Logical shift right by one (R88). -/
def shiftedRight (v : Byte) : Byte := v >>> 1

/-- Bit 0 before the shift (R88). -/
def shiftRightFlag (v : Byte) : Bool := v.getLsbD 0

/-- Twice the value in unbounded naturals, 0..510 (R90). -/
def wideDouble (v : Byte) : Nat := v.toNat * 2

/-- Shift left by one, bit 7 dropped (R77, R90). -/
def shiftedLeft (v : Byte) : Byte := BitVec.ofNat 8 (wideDouble v)

/-- 1 iff the shifted value exceeds 255 (R90). -/
def shiftLeftFlag (v : Byte) : Bool := decide (wideDouble v > 255)

/-- `write_with_flag(x, res, flag)`: the two writes in the order `VF_ORDER` gives (R78, D7). -/
def State.writeWithFlag (s : State) (x : Reg) (res : Byte) (flag : Bool) : State :=
  match s.params.vfOrder with
  | .flagLast => (s.setReg x res).setReg regF (flagByte flag)
  | .resultLast => (s.setReg regF (flagByte flag)).setReg x res

end Sys2Proof.Machine
end

