-- ==== Sys2Proof/Machine/Alu.lean ====
section
/-! DEFINITION. The register and ALU instructions and RND (spec/41_alu.md). None changes pc beyond
fetch, touches memory or raises a fault; operands are read before anything is written (R78). -/

namespace Sys2Proof.Machine

/-- 6xkk: V[x] <- kk (R80). -/
def execLdImm (x : Reg) (kk : Byte) (s : State) : Host.Outcome State Fault Refusal :=
  .next (s.setReg x kk)

/-- 7xkk: V[x] <- V[x] + kk mod 256, no flag (R79, R81). -/
def execAddImm (x : Reg) (kk : Byte) (s : State) : Host.Outcome State Fault Refusal :=
  .next (s.setReg x (sumByte (s.reg x) kk))

/-- 8xy0: V[x] <- V[y] (R82). -/
def execLdReg (x y : Reg) (s : State) : Host.Outcome State Fault Refusal :=
  .next (s.setReg x (s.reg y))

/-- 8xy1: bitwise OR, no flag (R79, R83). -/
def execOrReg (x y : Reg) (s : State) : Host.Outcome State Fault Refusal :=
  .next (s.setReg x (s.reg x ||| s.reg y))

/-- 8xy2: bitwise AND, no flag (R79, R84). -/
def execAndReg (x y : Reg) (s : State) : Host.Outcome State Fault Refusal :=
  .next (s.setReg x (s.reg x &&& s.reg y))

/-- 8xy3: bitwise exclusive OR, no flag (R79, R85). -/
def execXorReg (x y : Reg) (s : State) : Host.Outcome State Fault Refusal :=
  .next (s.setReg x (s.reg x ^^^ s.reg y))

/-- 8xy4: add, VF = carry (R86). -/
def execAddReg (x y : Reg) (s : State) : Host.Outcome State Fault Refusal :=
  .next (s.writeWithFlag x (sumByte (s.reg x) (s.reg y)) (carryFlag (s.reg x) (s.reg y)))

/-- 8xy5: V[x] - V[y], VF = 1 iff V[x] > V[y] (R87). -/
def execSubReg (x y : Reg) (s : State) : Host.Outcome State Fault Refusal :=
  .next (s.writeWithFlag x (differenceByte (s.reg x) (s.reg y)) (noBorrowFlag (s.reg x) (s.reg y)))

/-- 8xy6: V[x] shifted right, VF = the bit shifted out; y is not read (R88). -/
def execShr (x _y : Reg) (s : State) : Host.Outcome State Fault Refusal :=
  .next (s.writeWithFlag x (shiftedRight (s.reg x)) (shiftRightFlag (s.reg x)))

/-- 8xy7: V[y] - V[x], VF = 1 iff V[y] > V[x] (R89). -/
def execSubn (x y : Reg) (s : State) : Host.Outcome State Fault Refusal :=
  .next (s.writeWithFlag x (differenceByte (s.reg y) (s.reg x)) (noBorrowFlag (s.reg y) (s.reg x)))

/-- 8xyE: V[x] shifted left, VF = the bit shifted out; y is not read (R90, D36; log 21). -/
def execShl (x _y : Reg) (s : State) : Host.Outcome State Fault Refusal :=
  .next (s.writeWithFlag x (shiftedLeft (s.reg x)) (shiftLeftFlag (s.reg x)))

/-- Cxkk: V[x] <- a free draw AND kk (R91). -/
def execRnd (x : Reg) (kk : Byte) (s : State) : Host.Outcome State Fault Refusal :=
  .next (s.countDraw.setReg x (s.nextDraw &&& kk))

end Sys2Proof.Machine
end

