-- ==== Sys2Proof/Machine/Control.lean ====
section
/-! DEFINITION. SYS, RET, JP, CALL, the four register skips and JP V0 (spec/40_control.md), and the
effect of an unknown word (spec/30_encoding.md R52). On entry pc is already op_pc + 2 (R45). -/

namespace Sys2Proof.Machine

/-- 0nnn: no operation (R65, D2; log 13). -/
def execSys (_nnn : Addr) (s : State) : Host.Outcome State Fault Refusal := .next s

/-- 00EE: pop into pc, or StackUnderflow (R66). -/
def execRet (s : State) : Host.Outcome State Fault Refusal :=
  .next <|
    match s.stack.getLast? with
    | none => s.raise (s.execFault .stackUnderflow .ret none)
    | some target => s.dropTop.setPc target

/-- 1nnn: pc <- nnn (R67). -/
def execJp (nnn : Addr) (s : State) : Host.Outcome State Fault Refusal :=
  .next (s.setPc (zextAddr nnn))

/-- 2nnn: push the return address and jump, or StackOverflow (R68). -/
def execCall (nnn : Addr) (s : State) : Host.Outcome State Fault Refusal :=
  .next <|
    if s.stackFull then s.raise (s.execFault .stackOverflow (.call nnn) none)
    else (s.push s.pc).setPc (zextAddr nnn)

/-- 3xkk: skip if Vx = kk (R69). -/
def execSeImm (x : Reg) (kk : Byte) (s : State) : Host.Outcome State Fault Refusal :=
  .next (s.skipIf (decide (s.reg x = kk)))

/-- 4xkk: skip if Vx ≠ kk (R70). -/
def execSneImm (x : Reg) (kk : Byte) (s : State) : Host.Outcome State Fault Refusal :=
  .next (s.skipIf (decide (s.reg x ≠ kk)))

/-- 5xy0: skip if Vx = Vy (R71). -/
def execSeReg (x y : Reg) (s : State) : Host.Outcome State Fault Refusal :=
  .next (s.skipIf (decide (s.reg x = s.reg y)))

/-- 9xy0: skip if Vx ≠ Vy (R72). -/
def execSneReg (x y : Reg) (s : State) : Host.Outcome State Fault Refusal :=
  .next (s.skipIf (decide (s.reg x ≠ s.reg y)))

/-- Bnnn: pc <- nnn + V0 (R73). -/
def execJpV0 (nnn : Addr) (s : State) : Host.Outcome State Fault Refusal :=
  .next (s.setPc (zextAddr nnn + zextByte (s.reg 0)))

/-- A word outside the defined set: nothing beyond the advance fetch made (R52, D4; log 13). -/
def execUnknown (_op : Word) (s : State) : Host.Outcome State Fault Refusal := .next s

end Sys2Proof.Machine
end

