-- ==== Sys2Proof/Machine/Display.lean ====
section
/-! DEFINITION. CLS and DRW, the two writers of the framebuffer (spec/43_display.md). -/

namespace Sys2Proof.Machine

/-- 00E0: every cell off (R124). -/
def execCls (s : State) : Host.Outcome State Fault Refusal := .next { s with fb := Grid.clear }

/-- The draw of the sprite rows at (V[x], V[y]): the framebuffer, then VF, once (R123, R125). -/
def State.drawRows (s : State) (x y : Reg) (rows : List Byte) : State :=
  let drawn := s.fb.draw (spriteCells (s.reg x) (s.reg y) 0 rows)
  State.setReg { s with fb := drawn.1 } regF (flagByte drawn.2)

/-- Dxyn: XOR-draw n rows from I (R125; n = 0 draws nothing and clears VF, D29, log 20). -/
def execDrw (x y : Reg) (n : Nibble) (s : State) : Host.Outcome State Fault Refusal :=
  .next (s.load (.drw x y n) (s.effectiveAddress 0) n.toNat (s.drawRows x y))

end Sys2Proof.Machine
end

