-- ==== Sys2Proof/Machine/Index.lean ====
section
/-! DEFINITION. The index register and memory instructions (spec/42_index_memory.md). None changes I
as a side effect of an access (R110, D11; log 17); a transfer checks all its addresses first (R111). -/

namespace Sys2Proof.Machine

/-- Annn: I <- nnn (R112). -/
def execLdI (nnn : Addr) (s : State) : Host.Outcome State Fault Refusal :=
  .next { s with idx := zextAddr nnn }

/-- Fx1E: I <- I + V[x] mod 2^16, no flag (R113). -/
def execAddI (x : Reg) (s : State) : Host.Outcome State Fault Refusal :=
  .next { s with idx := s.idx + zextByte (s.reg x) }

/-- Fx29: I <- 5 × V[x] (R114). -/
def execLdF (x : Reg) (s : State) : Host.Outcome State Fault Refusal :=
  .next { s with idx := glyphAddress (s.reg x) }

/-- Fx33: the three decimal digits of V[x] at I, I+1, I+2 (R115). -/
def execLdB (x : Reg) (s : State) : Host.Outcome State Fault Refusal :=
  .next (s.store (.ldB x) (s.effectiveAddress 0) (bcdDigits (s.reg x)))

/-- Fx55: V0..V(k-1) at I upward (R116). -/
def execLdStore (x : Reg) (s : State) : Host.Outcome State Fault Refusal :=
  .next (s.store (.ldStore x) (s.effectiveAddress 0) (s.firstRegs (blockCount s.params x)))

/-- Fx65: V0..V(k-1) from I upward (R117). -/
def execLdLoad (x : Reg) (s : State) : Host.Outcome State Fault Refusal :=
  .next (s.load (.ldLoad x) (s.effectiveAddress 0) (blockCount s.params x) s.setRegs)

end Sys2Proof.Machine
end

