-- ==== Sys2Proof/Machine/Keys.lean ====
section
/-! DEFINITION. The keyboard and timer instructions (spec/44_keys_timers.md). -/

namespace Sys2Proof.Machine

/-- Ex9E: skip if the key V[x] names is pressed (R137). -/
def execSkp (x : Reg) (s : State) : Host.Outcome State Fault Refusal :=
  .next (s.skipIf (s.keyPressed (s.reg x)))

/-- ExA1: skip if the key V[x] names is not pressed (R138). -/
def execSknp (x : Reg) (s : State) : Host.Outcome State Fault Refusal :=
  .next (s.skipIf (!s.keyPressed (s.reg x)))

/-- Fx07: V[x] <- DT (R139). -/
def execLdVxDT (x : Reg) (s : State) : Host.Outcome State Fault Refusal :=
  .next (s.setReg x s.dt)

/-- Fx0A: the engine awaits a key press for V[x], which is not written now (R140). -/
def execLdVxK (x : Reg) (s : State) : Host.Outcome State Fault Refusal :=
  .next { s with run := .awaitingKey x }

/-- Fx15: DT <- V[x] (R141). -/
def execLdDT (x : Reg) (s : State) : Host.Outcome State Fault Refusal :=
  .next { s with dt := s.reg x }

/-- Fx18: ST <- V[x]; `soundActive` changes only at a tick (R142). -/
def execLdST (x : Reg) (s : State) : Host.Outcome State Fault Refusal :=
  .next { s with st := s.reg x }

end Sys2Proof.Machine
end

