-- ==== Sys2Proof/Machine/Step.lean ====
section
/-! DEFINITION. One call of `step()` (spec/30_encoding.md R45): a faulted or waiting engine does
nothing; a running one fetches, advances pc by 2, decodes and executes. -/

namespace Sys2Proof.Machine

def step (s : State) : Host.Outcome State Fault Refusal :=
  match s.run with
  | .faulted _ => .next s
  | .awaitingKey _ => .next s
  | .running =>
    match s.fetch with
    | .error bad => .next (s.raise (s.fetchFault bad))
    | .ok op =>
      match decode op with
      | .instr i => exec i s.advance
      | .unknown op => execUnknown op s.advance

/-- `s` with a word of the opcode table stored where the next step fetches, in a running engine.
A program is loaded from outside the machine, by the host's `load_program`; log 10. -/
def State.withFetchWord (s : State) (nbits w : Nat) : State := s.placeWord (tableWord nbits w)

end Sys2Proof.Machine
end

