-- ==== Sys2Proof/Machine/HostCalls.lean ====
section
/-! DEFINITION. The host interface (spec/60_exceptions.md R160..R168): the closed set of calls, what
each does to the state and what it returns. Calls are serialized, each is one transition (R39, R168),
so a run is a list of calls in any order (R161; log 8). Argument types hold the host's preconditions:
a call out of range is no call of the model (R162, R166; log 9). -/

namespace Sys2Proof.Machine

/-- What a call of `step()` returns (spec/30_encoding.md R46): an output, not state. The diagnostic
mnemonic is the instruction itself; its text is not architectural (log 25). -/
inductive StepResult where
  | suspended
  | executed (op : Word) (ins : Instr)
  | unknown (op : Word)
  | faulted (f : FaultRecord)
  | halted (f : FaultRecord)
  deriving DecidableEq, Repr

/-- The calls of R163. -/
inductive HostCall where
  /-- A new engine with the same parameters (R163, R170). -/
  | construct
  /-- `load_program(bytes)` (R164). -/
  | loadProgram (bytes : List Byte)
  /-- `load_bytes(addr, bytes)` (R165). -/
  | loadBytes (addr : Nat) (bytes : List Byte)
  /-- `step()` (R45). -/
  | step
  /-- `tick()` (R160). -/
  | tick
  /-- `deliver_key(code, pressed)`, code in 0..15 (R162). -/
  | deliverKey (code : Key) (pressed : Bool)
  /-- The accessor of one register (R166). -/
  | readRegister (r : Reg)
  /-- The accessor of I (R166). -/
  | readIndex
  /-- The accessor of pc (R166). -/
  | readPc
  /-- The accessor of a byte at 0x000..0xFFF (R166). -/
  | readByte (a : Fin 0x1000)
  /-- The accessor of a word at 0x000..0xFFE (R166). -/
  | readWord (a : Fin 0xFFF)
  /-- The accessor of the framebuffer (R167). -/
  | readFramebuffer
  deriving DecidableEq, Repr

/-- What a call returns (R163). -/
inductive Reply where
  /-- `construct`: a new engine. -/
  | constructed
  /-- A load that was done. -/
  | ok
  /-- A load refused as a whole (R164, R165). -/
  | refused
  /-- The result of `step()`. -/
  | stepped (r : StepResult)
  /-- `tick()` returns `sound_active`. -/
  | ticked (soundActive : Bool)
  /-- `deliver_key` returns nothing. -/
  | nothing
  /-- A copy of a register or a byte. -/
  | byte (v : Byte)
  /-- A copy of I, pc or a word. -/
  | word (v : Word)
  /-- A copy of the framebuffer. -/
  | framebuffer (g : Grid)
  deriving DecidableEq, Repr

/-- `tick()`: sound from ST before the decrement, then each timer above 0 goes down by 1 (R160). -/
def State.tick (s : State) : State :=
  { s with
    soundActive := decide (s.st.toNat > 0)
    st := if s.st.toNat > 0 then s.st - 1 else s.st
    dt := if s.dt.toNat > 0 then s.dt - 1 else s.dt }

/-- The latch of key `code` set to `pressed`. -/
def State.setKey (s : State) (code : Key) (pressed : Bool) : State :=
  { s with keys := s.keys.set code.val pressed code.isLt }

/-- The key code as a register value (R162). -/
def keyByte (code : Key) : Byte := BitVec.ofNat 8 code.val

/-- A waiting engine resumes with the key code in its destination register (R136, R162). -/
def State.resumeWith (s : State) (code : Key) : State :=
  match s.run with
  | .awaitingKey d => State.setReg { s with run := .running } d (keyByte code)
  | .running => s
  | .faulted _ => s

/-- `deliver_key(code, pressed)` (R162). -/
def State.deliverKey (s : State) (code : Key) (pressed : Bool) : State :=
  if pressed then (s.setKey code true).resumeWith code else s.setKey code false

/-- A load at `a`, with its reply (R164, R165). -/
def State.hostLoad (s : State) (a : Nat) (bytes : List Byte) : State × Reply :=
  match s.mem.hostLoad a bytes with
  | some m => ({ s with mem := m }, .ok)
  | none => (s, .refused)

/-- A new engine in place of `s`: the parameters stay, and the hidden random source is not rewound
(R29, R170, R171). -/
def State.reconstruct (s : State) : State := { State.construct s.params with draws := s.draws }

/-- What `step()` returns when it takes `s` to `t` (R45, R46). -/
def stepResult (s t : State) : StepResult :=
  match s.run with
  | .faulted f => .halted f
  | .awaitingKey _ => .suspended
  | .running =>
    match s.fetch with
    | .error bad => .faulted (s.fetchFault bad)
    | .ok op =>
      match decode op with
      | .unknown op => .unknown op
      | .instr i =>
        match t.run with
        | .faulted f => .faulted f
        | .awaitingKey _ => .executed op i
        | .running => .executed op i

/-- One call of the host: the state after it and what it returns (R163). -/
def hostCall (c : HostCall) (s : State) : Host.Outcome (State × Reply) Fault Refusal :=
  match c with
  | .construct => .next (s.reconstruct, .constructed)
  | .loadProgram bytes => .next (s.hostLoad programOrigin.toNat bytes)
  | .loadBytes addr bytes => .next (s.hostLoad addr bytes)
  | .step =>
    match step s with
    | .next t => .next (t, .stepped (stepResult s t))
    | .fault r => .fault r
    | .refused r => .refused r
  | .tick => .next (s.tick, .ticked s.tick.soundActive)
  | .deliverKey code pressed => .next (s.deliverKey code pressed, .nothing)
  | .readRegister r => .next (s, .byte (s.reg r))
  | .readIndex => .next (s, .word s.idx)
  | .readPc => .next (s, .word s.pc)
  | .readByte a => .next (s, .byte (s.mem.readByte a.val))
  | .readWord a => .next (s, .word (s.mem.readWord a.val))
  | .readFramebuffer => .next (s, .framebuffer s.fb)

/-- A run: any list of host calls, one after the other (R39, R161). -/
def runCalls : List HostCall → State → Host.Outcome State Fault Refusal
  | [], s => .next s
  | c :: cs, s =>
    match hostCall c s with
    | .next (t, _) => runCalls cs t
    | .fault r => .fault r
    | .refused r => .refused r

/-- What the ticks of a run of calls report, first to last (R163). -/
def tickReports : List HostCall → State → List Bool
  | [], _ => []
  | c :: cs, s =>
    match hostCall c s with
    | .next (t, .ticked b) => b :: tickReports cs t
    | .next (t, _) => tickReports cs t
    | .fault _ => []
    | .refused _ => []

/-! ### A host without end, and the conditions on it (R161, R175) -/

/-- A host that goes on calling: its n-th call, in any interleaving (R161). -/
abbrev CallSequence := Nat → HostCall

/-- The state after the host's first `n` calls. -/
def CallSequence.runTo (h : CallSequence) (n : Nat) (s : State) : Host.Outcome State Fault Refusal :=
  runCalls ((List.range n).map h) s

/-- The fairness assumption: the host keeps calling `tick()`, after every call once more. It says
nothing of how often, since the model has no time (R161, R175 item 2, D31; log 27). -/
def CallSequence.keepsTicking (h : CallSequence) : Prop := ∀ n, ∃ m, n ≤ m ∧ h m = .tick

/-- The host delivers a key press (R175 item 3). -/
def CallSequence.pressesAKey (h : CallSequence) : Prop := ∃ n k, h n = .deliverKey k true

/-- The host constructs no new engine (R170). -/
def CallSequence.keepsTheEngine (h : CallSequence) : Prop := ∀ n, h n ≠ .construct

end Sys2Proof.Machine
end

