-- ==== Sys2Proof/Safety.lean ====
section
/-! DEFINITION. What a good state and a good run are: the invariant every call keeps, and the end of
a run (spec/70_reset_and_hazards.md R177). The vocabulary of the statements: the parts of a state and
what a step leaves unchanged. -/

namespace Sys2Proof.Machine

/-- The stack holds at most `STACK_DEPTH` entries, and that bound is at least 1 (R7, R18). -/
def State.stackOk (s : State) : Bool :=
  match s.params.stackDepth with
  | .unbounded => true
  | .bounded n => decide (1 ≤ n) && decide (s.stack.length ≤ n)

/-- The record of a fault during fetch: op is absent, pc was not advanced, and the address is the
first one above 0xFFF of pc, pc + 1 (R45, R150, R151). -/
def State.fetchFaultOk (s : State) (f : FaultRecord) : Bool :=
  decide (f.kind = .outOfRangeAddress) && decide (s.pc = f.opPc) &&
    decide (f.addr = firstOutOfRange f.opPc.toNat 2) && f.addr.isSome

/-- The record of a fault of the executed instruction `i`: pc is op_pc + 2, and the kind is the one
`i` can raise, with the state that raised it still in place (R150, R151, R153). -/
def State.execFaultOk (s : State) (f : FaultRecord) (i : Instr) : Bool :=
  decide (s.pc = f.opPc + 2) && decide (f.opPc.toNat ≤ 0xFFE) &&
    match i with
    | .call _ => decide (f.kind = .stackOverflow) && f.addr.isNone && s.stackFull
    | .ret => decide (f.kind = .stackUnderflow) && f.addr.isNone && s.stack.isEmpty
    | .drw _ _ n =>
      decide (f.kind = .outOfRangeAddress) && f.addr.isSome &&
        decide (f.addr = firstOutOfRange s.idx.toNat n.toNat)
    | .ldB _ =>
      decide (f.kind = .outOfRangeAddress) && f.addr.isSome &&
        decide (f.addr = firstOutOfRange s.idx.toNat 3)
    | .ldStore x =>
      decide (f.kind = .outOfRangeAddress) && f.addr.isSome &&
        decide (f.addr = firstOutOfRange s.idx.toNat (blockCount s.params x))
    | .ldLoad x =>
      decide (f.kind = .outOfRangeAddress) && f.addr.isSome &&
        decide (f.addr = firstOutOfRange s.idx.toNat (blockCount s.params x))
    | _ => false

/-- A faulted engine's record tells why it faulted, and nothing has moved since (R150, R151, R152). -/
def State.runOk (s : State) : Bool :=
  match s.run with
  | .running => true
  | .awaitingKey _ => true
  | .faulted f =>
    match f.op with
    | none => s.fetchFaultOk f
    | some op =>
      match decode op with
      | .unknown _ => false
      | .instr i => s.execFaultOk f i

/-- The invariant: memory in canonical form, the stack within its depth, a faulted engine's record
in agreement with its state. -/
def State.inv (s : State) : Bool := s.mem.wf && s.stackOk && s.runOk

/-- The engine has not faulted. -/
def State.alive (s : State) : Bool :=
  match s.run with
  | .faulted _ => false
  | .running => true
  | .awaitingKey _ => true

/-- The three ways a run is ended between calls (R177). -/
inductive RunEnd where
  /-- (a) the run ended in a fault: a bad end. -/
  | fault
  /-- (b) the word at pc jumps to itself: a good end. -/
  | selfJump
  /-- (c) the run waits for a key: ended only if no press is delivered any more. -/
  | waiting
  deriving DecidableEq, Repr

/-- Whether, and how, a run is ended at `s` (R177). It does not say that the engine stops. -/
def State.ended (s : State) : Option RunEnd :=
  match s.run with
  | .faulted _ => some .fault
  | .awaitingKey _ => some .waiting
  | .running =>
    match s.fetch with
    | .error _ => none
    | .ok op =>
      match decode op with
      | .instr (.jp nnn) => if zextAddr nnn = s.pc then some .selfJump else none
      | _ => none

/-! ### The parts of a state -/

/-- One part of the state, as a program or the host can tell it from the others. -/
inductive Part where
  | reg (r : Reg)
  | byte (a : Nat)
  | idx
  | pc
  | stack
  | dt
  | st
  | soundActive
  | cell (c : Col) (r : Row)
  | key (k : Key)
  | run
  | draws
  | params
  deriving DecidableEq, Repr

/-- The part holds in `t` what it holds in `s`. -/
def Part.same (s t : State) : Part → Prop
  | .reg r => t.reg r = s.reg r
  | .byte a => t.mem.readByte a = s.mem.readByte a
  | .idx => t.idx = s.idx
  | .pc => t.pc = s.pc
  | .stack => t.stack = s.stack
  | .dt => t.dt = s.dt
  | .st => t.st = s.st
  | .soundActive => t.soundActive = s.soundActive
  | .cell c r => t.cell c r = s.cell c r
  | .key k => t.key k = s.key k
  | .run => t.run = s.run
  | .draws => t.draws = s.draws
  | .params => t.params = s.params

/-- Every part but the touched ones is unchanged from `s` to `t`. -/
def changesOnly (s t : State) (touched : Part → Prop) : Prop :=
  ∀ p : Part, ¬touched p → p.same s t

/-- `w` is the word of `i`, read both ways. -/
def hasWord (i : Instr) (w : Nat) : Prop :=
  (encode i).toNat = w ∧ decode (encode i) = .instr i

/-- The word at pc is the one `i` decodes from, both bytes in memory, and the engine runs. -/
def State.fetches (s : State) (i : Instr) : Prop :=
  s.run = .running ∧ s.pc.toNat ≤ 0xFFE ∧ decode (s.mem.readWord s.pc.toNat) = .instr i

/-- No call of the run from `s` constructs a new engine, and no step of it runs LD ST, Vx: nothing but
a tick can change the sound timer (R20, R142). -/
def soundUndisturbed : List HostCall → State → Prop
  | [], _ => True
  | c :: cs, s =>
    c ≠ .construct ∧ (c = .step → ∀ x, ¬s.fetches (.ldST x)) ∧
      ∀ t r, hostCall c s = .next (t, r) → soundUndisturbed cs t

/-- The host keeps the engine, and no step of its run from `s` runs LD DT, Vx: nothing but a tick can
change the delay timer (R19, R139). -/
def CallSequence.delayUndisturbed (h : CallSequence) (s : State) : Prop :=
  h.keepsTheEngine ∧
    ∀ n t, h.runTo n s = .next t → h n = .step → ∀ x, ¬t.fetches (.ldDT x)

/-- The state after `i`, run at `s`, raised a fault of kind `k`: nothing but `run` differs (R150). -/
def State.faultedBy (s : State) (k : FaultKind) (i : Instr) (addr : Option Nat) : State :=
  { s with run := .faulted { kind := k, opPc := s.pc - 2, op := some (encode i), addr := addr } }

/-- `i` completes at `s` with V[x] written to `v` and nothing else changed. -/
def writesRegister (i : Instr) (s : State) (x : Reg) (v : Byte) : Prop :=
  ∃ t, exec i s = .next t ∧ t.reg x = v ∧ changesOnly s t fun p => p = .reg x

/-- `i` completes at `s` with the result in V[x] and the flag in VF, and nothing else changed; for
x = F the final one of the two is what `VF_ORDER` says (R78). -/
def writesResultAndFlag (i : Instr) (s : State) (x : Reg) (res flag : Nat) : Prop :=
  ∃ t, exec i s = .next t ∧
    (x ≠ regF → (t.reg x).toNat = res ∧ (t.reg regF).toNat = flag) ∧
    (x = regF → s.params.vfOrder = .flagLast → (t.reg regF).toNat = flag) ∧
    (x = regF → s.params.vfOrder = .resultLast → (t.reg regF).toNat = res) ∧
    changesOnly s t fun p => p = .reg x ∨ p = .reg regF

/-- `i` completes at `s` with pc moved past the next word iff the condition holds, and nothing else
changed. -/
def skipsNextWhen (i : Instr) (s : State) (cond : Prop) : Prop :=
  ∃ t, exec i s = .next t ∧ (cond → t.pc = s.pc + 2) ∧ (¬cond → t.pc = s.pc) ∧
    changesOnly s t fun p => p = .pc

/-- `i` completes at `s` with `v` in the one 16-bit part `get` reads, nothing but `p` changed. -/
def writesWord (i : Instr) (s : State) (p : Part) (get : State → Word) (v : Nat) : Prop :=
  ∃ t, exec i s = .next t ∧ (get t).toNat = v ∧ changesOnly s t fun q => q = p

/-- The cell at column c and row r is under a lit pixel of the sprite of n rows that memory holds at
I, drawn at (V[x], V[y]) (R120, R121). -/
def State.underSprite (s : State) (x y : Reg) (n : Nat) (c : Col) (r : Row) : Prop :=
  ∃ j i : Nat, j < n ∧ i < 8 ∧ (s.mem.readByte (s.idx.toNat + j)).getLsbD (7 - i) = true ∧
    c.val = ((s.reg x).toNat + i) % 64 ∧ r.val = ((s.reg y).toNat + j) % 32

end Sys2Proof.Machine
end

