-- ==== Sys2Proof/Certificates/Slice0/Obligations.lean ====
section
/-! DEFINITION. The statements for the provers, from the numbered rules of spec/. In a statement
about `exec`, `s` is the state after fetch: its pc is already the address of the instruction plus 2
(spec/30_encoding.md R45). -/

open Sys2Proof Sys2Proof.Machine

/-! ### Encoding and decoding (spec/30_encoding.md) -/

/-- R50, R51: decoding the word of a well-formed instruction gives it back, every operand at every
value. -/
def Obligations.DecodeOfEncodeIsTheInstruction : Prop :=
  ∀ i : Instr, i.wf = true → decode (encode i) = .instr i

/-- R51: every word decodes to exactly one well-formed instruction or to `Unknown`, and no two
well-formed instructions share a word. -/
def Obligations.DecoderIsTotalAndUnambiguous : Prop :=
  ∀ w : Word,
    (∃ i : Instr, decode w = .instr i ∧ i.wf = true ∧ encode i = w ∧
      ∀ j : Instr, j.wf = true → encode j = w → j = i) ∨
    (decode w = .unknown w ∧ ∀ j : Instr, j.wf = true → encode j ≠ w)

/-- R52: the unknown words are exactly the listed ones, and a step that meets one advances pc by 2,
changes nothing else and reports the word. The rule's counts of words are not stated. -/
def Obligations.UnknownWordsAreTheListedAndAreSkipped : Prop :=
  (∀ w : Word, decode w = .unknown w ↔
    (w.toNat / 0x1000 = 0x5 ∧ w.toNat % 0x10 ≠ 0x0) ∨
    (w.toNat / 0x1000 = 0x8 ∧ w.toNat % 0x10 ∈ [0x8, 0x9, 0xA, 0xB, 0xC, 0xD, 0xF]) ∨
    (w.toNat / 0x1000 = 0x9 ∧ w.toNat % 0x10 ≠ 0x0) ∨
    (w.toNat / 0x1000 = 0xE ∧ w.toNat % 0x100 ∉ [0x9E, 0xA1]) ∨
    (w.toNat / 0x1000 = 0xF ∧
      w.toNat % 0x100 ∉ [0x07, 0x0A, 0x15, 0x18, 0x1E, 0x29, 0x33, 0x55, 0x65])) ∧
  (∀ (s : State) (w : Word), s.run = .running → s.pc.toNat ≤ 0xFFE →
    s.mem.readWord s.pc.toNat = w → decode w = .unknown w →
    hostCall .step s = .next ({ s with pc := s.pc + 2 }, .stepped (.unknown w)))

/-- R49 and R50: words written out bit by bit decode to what they stand for, one of each layout. -/
def Obligations.WrittenWordsDecodeAsListed : Prop :=
  decode 0b0001001000000100#16 = .instr (.jp 0x204) ∧
  decode 0b0010001000000100#16 = .instr (.call 0x204) ∧
  decode 0b0000000011101110#16 = .instr .ret ∧
  decode 0b0110000111111111#16 = .instr (.ldImm 1 0xFF) ∧
  decode 0b1000000100100100#16 = .instr (.addReg 1 2) ∧
  decode 0b1000000100000110#16 = .instr (.shr 1 0) ∧
  decode 0b1101000000010010#16 = .instr (.drw 0 1 2) ∧
  decode 0b1110000110011110#16 = .instr (.skp 1) ∧
  decode 0b1111001001010101#16 = .instr (.ldStore 2)

/-! ### The step cycle (spec/30_encoding.md R45, spec/60_exceptions.md) -/

/-- R33, R45: when the two bytes at pc, the high one first, decode to an instruction, a step of a
running engine is that instruction's meaning at the state with pc advanced by 2. -/
def Obligations.StepRunsTheDecodedInstruction : Prop :=
  ∀ (s : State) (i : Instr), s.run = .running → s.pc.toNat ≤ 0xFFE →
    decode (wordOfBytes (s.mem.readByte s.pc.toNat) (s.mem.readByte (s.pc.toNat + 1))) = .instr i →
    step s = exec i { s with pc := s.pc + 2 }

/-- R45, all of it: what `step()` does and returns in each run state and for each fetched word. -/
def Obligations.StepCycleAndItsResults : Prop :=
  ∀ s : State,
    (∀ f, s.run = .faulted f → hostCall .step s = .next (s, .stepped (.halted f))) ∧
    (∀ d, s.run = .awaitingKey d → hostCall .step s = .next (s, .stepped .suspended)) ∧
    (∀ f : FaultRecord, s.run = .running → 0xFFF ≤ s.pc.toNat →
      f = ⟨.outOfRangeAddress, s.pc, none, some (max s.pc.toNat 0x1000)⟩ →
      hostCall .step s = .next ({ s with run := .faulted f }, .stepped (.faulted f))) ∧
    (∀ w : Word, s.run = .running → s.pc.toNat ≤ 0xFFE →
      w.toNat = 0x100 * (s.mem.readByte s.pc.toNat).toNat + (s.mem.readByte (s.pc.toNat + 1)).toNat →
      decode w = .unknown w →
      hostCall .step s = .next ({ s with pc := s.pc + 2 }, .stepped (.unknown w))) ∧
    (∀ (w : Word) (i : Instr), s.run = .running → s.pc.toNat ≤ 0xFFE →
      w.toNat = 0x100 * (s.mem.readByte s.pc.toNat).toNat + (s.mem.readByte (s.pc.toNat + 1)).toNat →
      decode w = .instr i →
      ∃ t r, exec i { s with pc := s.pc + 2 } = .next t ∧ hostCall .step s = .next (t, .stepped r) ∧
        (∀ f, t.run = .faulted f → r = .faulted f) ∧
        ((∀ f, t.run ≠ .faulted f) → r = .executed w i))

/-- R150: taking a fault. The state is the one before the instruction but for pc and `run`; the record
names the address and word of the instruction; pc is op_pc after a fetch fault, op_pc + 2 otherwise;
`step()` returns the record. -/
def Obligations.FaultsArePrecise : Prop :=
  ∀ (s t : State) (f : FaultRecord), s.run = .running → step s = .next t → t.run = .faulted f →
    t = { s with pc := t.pc, run := .faulted f } ∧ f.opPc = s.pc ∧
    hostCall .step s = .next (t, .stepped (.faulted f)) ∧
    ((f.op = none ∧ t.pc = s.pc) ∨
      (s.pc.toNat ≤ 0xFFE ∧ f.op = some (s.mem.readWord s.pc.toNat) ∧ t.pc = s.pc + 2))

/-- R151, R153: which fault a step of a running engine raises, and when: a fetch at 0xFFF or above, or
the one condition of the one instruction it runs. -/
def Obligations.EachFaultHasItsCause : Prop :=
  ∀ (s t : State) (f : FaultRecord), s.run = .running → step s = .next t → t.run = .faulted f →
    (0xFFF ≤ s.pc.toNat ∧ f.kind = .outOfRangeAddress ∧ f.op = none ∧
      f.addr = some (max s.pc.toNat 0x1000)) ∨
    (∃ i : Instr, s.fetches i ∧ f.op = some (encode i) ∧
      match i with
      | .call _ => f.kind = .stackOverflow ∧ f.addr = none ∧
          s.params.stackDepth = .bounded s.stack.length
      | .ret => f.kind = .stackUnderflow ∧ f.addr = none ∧ s.stack = []
      | .drw _ _ n => f.kind = .outOfRangeAddress ∧ n.toNat ≠ 0 ∧ 0xFFF < s.idx.toNat + n.toNat - 1 ∧
          f.addr = some (max s.idx.toNat 0x1000)
      | .ldB _ => f.kind = .outOfRangeAddress ∧ 0xFFF < s.idx.toNat + 2 ∧
          f.addr = some (max s.idx.toNat 0x1000)
      | .ldStore x => f.kind = .outOfRangeAddress ∧ blockCount s.params x ≠ 0 ∧
          0xFFF < s.idx.toNat + blockCount s.params x - 1 ∧ f.addr = some (max s.idx.toNat 0x1000)
      | .ldLoad x => f.kind = .outOfRangeAddress ∧ blockCount s.params x ≠ 0 ∧
          0xFFF < s.idx.toNat + blockCount s.params x - 1 ∧ f.addr = some (max s.idx.toNat 0x1000)
      | _ => False)

/-- R152: a faulted engine stays faulted. `step()` changes nothing and returns Halted; `tick` and
`deliver_key` keep their effects on timers and latch; no list of calls without a construction changes
`run`, pc, a register, I, the stack or the framebuffer; a construction gives a running engine. -/
def Obligations.FaultedStaysFaulted : Prop :=
  ∀ (s : State) (f : FaultRecord), s.run = .faulted f →
    hostCall .step s = .next (s, .stepped (.halted f)) ∧
    (∀ t r, hostCall .tick s = .next (t, r) →
      t.dt.toNat = s.dt.toNat - 1 ∧ t.st.toNat = s.st.toNat - 1 ∧
      (t.soundActive = true ↔ 0 < s.st.toNat)) ∧
    (∀ k b t r, hostCall (.deliverKey k b) s = .next (t, r) →
      t.key k = b ∧ changesOnly s t fun p => p = .key k) ∧
    (∀ cs : List HostCall, .construct ∉ cs →
      ∃ t, runCalls cs s = .next t ∧ t.run = .faulted f ∧ t.pc = s.pc ∧ t.regs = s.regs ∧
        t.idx = s.idx ∧ t.stack = s.stack ∧ t.fb = s.fb) ∧
    (∃ t, hostCall .construct s = .next (t, .constructed) ∧ t.run = .running)

/-! ### Register and ALU instructions (spec/41_alu.md) -/

/-- R80, R82: LD Vx, byte and LD Vx, Vy. -/
def Obligations.LoadsWriteOneRegister : Prop :=
  ∀ (x y : Reg) (kk : Byte) (s : State),
    hasWord (.ldImm x kk) (0x6000 + 0x100 * x.val + kk.toNat) ∧
    writesRegister (.ldImm x kk) s x kk ∧
    hasWord (.ldReg x y) (0x8000 + 0x100 * x.val + 0x10 * y.val) ∧
    writesRegister (.ldReg x y) s x (s.reg y)

/-- R83, R84, R85: OR, AND and XOR write V[x] bit by bit, and no flag. -/
def Obligations.LogicWritesOneRegister : Prop :=
  ∀ (x y : Reg) (s : State),
    hasWord (.orReg x y) (0x8001 + 0x100 * x.val + 0x10 * y.val) ∧
    hasWord (.andReg x y) (0x8002 + 0x100 * x.val + 0x10 * y.val) ∧
    hasWord (.xorReg x y) (0x8003 + 0x100 * x.val + 0x10 * y.val) ∧
    (∃ v, writesRegister (.orReg x y) s x v ∧
      ∀ b < 8, v.getLsbD b = ((s.reg x).getLsbD b || (s.reg y).getLsbD b)) ∧
    (∃ v, writesRegister (.andReg x y) s x v ∧
      ∀ b < 8, v.getLsbD b = ((s.reg x).getLsbD b && (s.reg y).getLsbD b)) ∧
    (∃ v, writesRegister (.xorReg x y) s x v ∧
      ∀ b < 8, v.getLsbD b = ((s.reg x).getLsbD b ^^ (s.reg y).getLsbD b))

/-- R81: ADD Vx, byte wraps mod 256 and writes no flag. -/
def Obligations.AddImmediateWrapsWithoutFlag : Prop :=
  ∀ (x : Reg) (kk : Byte) (s : State),
    hasWord (.addImm x kk) (0x7000 + 0x100 * x.val + kk.toNat) ∧
    ∃ v, writesRegister (.addImm x kk) s x v ∧ v.toNat = ((s.reg x).toNat + kk.toNat) % 256

/-- R86 (and R78 for it): ADD Vx, Vy, its carry, and which write is final when x = F. -/
def Obligations.AddSetsCarry : Prop :=
  ∀ (x y : Reg) (s : State),
    hasWord (.addReg x y) (0x8004 + 0x100 * x.val + 0x10 * y.val) ∧
    writesResultAndFlag (.addReg x y) s x (((s.reg x).toNat + (s.reg y).toNat) % 256)
      (if (s.reg x).toNat + (s.reg y).toNat > 255 then 1 else 0)

/-- R87, R89 (and R78 for them): SUB and SUBN wrap mod 256; the flag is 1 iff the minuend strictly
exceeds the subtrahend. -/
def Obligations.SubtractionsWrapAndCompareStrictly : Prop :=
  ∀ (x y : Reg) (s : State),
    hasWord (.subReg x y) (0x8005 + 0x100 * x.val + 0x10 * y.val) ∧
    hasWord (.subn x y) (0x8007 + 0x100 * x.val + 0x10 * y.val) ∧
    writesResultAndFlag (.subReg x y) s x (((s.reg x).toNat + 256 - (s.reg y).toNat) % 256)
      (if (s.reg x).toNat > (s.reg y).toNat then 1 else 0) ∧
    writesResultAndFlag (.subn x y) s x (((s.reg y).toNat + 256 - (s.reg x).toNat) % 256)
      (if (s.reg y).toNat > (s.reg x).toNat then 1 else 0)

/-- R88, R90 (and R78 for them): SHR and SHL shift V[x], whatever y is, and the flag is the bit
shifted out. -/
def Obligations.ShiftsMoveOneBitIntoVF : Prop :=
  ∀ (x y : Reg) (s : State),
    hasWord (.shr x y) (0x8006 + 0x100 * x.val + 0x10 * y.val) ∧
    hasWord (.shl x y) (0x800E + 0x100 * x.val + 0x10 * y.val) ∧
    writesResultAndFlag (.shr x y) s x ((s.reg x).toNat / 2) ((s.reg x).toNat % 2) ∧
    writesResultAndFlag (.shl x y) s x ((s.reg x).toNat * 2 % 256) ((s.reg x).toNat / 128)

/-- R91: RND writes the draw masked with kk. The draw is a free value, the model's own opaque constant
at the model's own counter (log 4), so this holds for every value of it; bits outside kk are 0. -/
def Obligations.RandomByteIsMasked : Prop :=
  ∀ (x : Reg) (kk : Byte) (s : State),
    hasWord (.rnd x kk) (0xC000 + 0x100 * x.val + kk.toNat) ∧
    ∃ t, exec (.rnd x kk) s = .next t ∧
      (∀ b < 8, (t.reg x).getLsbD b = ((Config.rngDraw s.draws).getLsbD b && kk.getLsbD b)) ∧
      t.draws = s.draws + 1 ∧
      changesOnly s t fun p => p = .reg x ∨ p = .draws

/-- R15: no instruction but the flag instructions, DRW, a block load that reaches register 15, and
those that name register 15 as their destination writes VF. -/
def Obligations.OnlyTheNamedInstructionsWriteVF : Prop :=
  ∀ (i : Instr) (s t : State), exec i s = .next t → t.reg regF ≠ s.reg regF →
    match i with
    | .addReg _ _ | .subReg _ _ | .subn _ _ | .shr _ _ | .shl _ _ | .drw _ _ _ => True
    | .ldLoad x => x = regF ∧ s.params.blockCopyInclusive = true
    | .ldImm x _ | .addImm x _ | .rnd x _ | .ldVxDT x => x = regF
    | .ldReg x _ | .orReg x _ | .andReg x _ | .xorReg x _ => x = regF
    | _ => False

/-! ### Control transfer (spec/40_control.md) -/

/-- R65, R67, R73: SYS does nothing, JP and JP V0 overwrite pc without a check. -/
def Obligations.SysAndJumps : Prop :=
  ∀ (nnn : Addr) (s : State),
    (nnn ≠ 0x0E0 → nnn ≠ 0x0EE → hasWord (.sys nnn) nnn.toNat) ∧
    exec (.sys nnn) s = .next s ∧
    hasWord (.jp nnn) (0x1000 + nnn.toNat) ∧
    writesWord (.jp nnn) s .pc State.pc nnn.toNat ∧
    hasWord (.jpV0 nnn) (0xB000 + nnn.toNat) ∧
    writesWord (.jpV0 nnn) s .pc State.pc (nnn.toNat + (s.reg 0).toNat)

/-- R69, R70, R71, R72: the four register skips. -/
def Obligations.RegisterSkips : Prop :=
  ∀ (x y : Reg) (kk : Byte) (s : State),
    hasWord (.seImm x kk) (0x3000 + 0x100 * x.val + kk.toNat) ∧
    skipsNextWhen (.seImm x kk) s (s.reg x = kk) ∧
    hasWord (.sneImm x kk) (0x4000 + 0x100 * x.val + kk.toNat) ∧
    skipsNextWhen (.sneImm x kk) s (s.reg x ≠ kk) ∧
    hasWord (.seReg x y) (0x5000 + 0x100 * x.val + 0x10 * y.val) ∧
    skipsNextWhen (.seReg x y) s (s.reg x = s.reg y) ∧
    hasWord (.sneReg x y) (0x9000 + 0x100 * x.val + 0x10 * y.val) ∧
    skipsNextWhen (.sneReg x y) s (s.reg x ≠ s.reg y)

/-- R68: CALL pushes the return address and jumps; at `STACK_DEPTH` it raises StackOverflow and
changes nothing but `run`. -/
def Obligations.CallPushesOrOverflows : Prop :=
  ∀ (nnn : Addr) (s : State),
    hasWord (.call nnn) (0x2000 + nnn.toNat) ∧
    (s.params.stackDepth ≠ .bounded s.stack.length →
      ∃ t, exec (.call nnn) s = .next t ∧ t.stack = s.stack ++ [s.pc] ∧ t.pc.toNat = nnn.toNat ∧
        changesOnly s t fun p => p = .stack ∨ p = .pc) ∧
    (s.params.stackDepth = .bounded s.stack.length →
      exec (.call nnn) s = .next (s.faultedBy .stackOverflow (.call nnn) none))

/-- R66: RET pops the last entry into pc; on an empty stack it raises StackUnderflow and changes
nothing but `run`. -/
def Obligations.RetPopsOrUnderflows : Prop :=
  ∀ (s : State),
    hasWord .ret 0x00EE ∧
    (∀ (below : List Word) (a : Word), s.stack = below ++ [a] →
      ∃ t, exec .ret s = .next t ∧ t.stack = below ∧ t.pc = a ∧
        changesOnly s t fun p => p = .stack ∨ p = .pc) ∧
    (s.stack = [] → exec .ret s = .next (s.faultedBy .stackUnderflow .ret none))

/-- R66, R68, R76: after a CALL that did not overflow, a RET at any state with the stack the CALL left
returns to the instruction after the CALL with the stack from before it. -/
def Obligations.RetReturnsToAfterTheCall : Prop :=
  ∀ (nnn : Addr) (s t u : State), exec (.call nnn) s = .next t → t.run = s.run → s.run = .running →
    u.stack = t.stack →
    ∃ v, exec .ret u = .next v ∧ v.pc = s.pc ∧ v.stack = s.stack ∧ v.run = u.run

/-- R74: over one step, pc advances by exactly 2 but for jump, call, return and skip variants, and a
skip adds 0 or 2 to that. -/
def Obligations.PcAdvancesByTwoButForTransfers : Prop :=
  ∀ (s t : State) (i : Instr), s.fetches i → step s = .next t →
    match i with
    | .jp _ | .call _ | .ret | .jpV0 _ => True
    | .seImm _ _ | .sneImm _ _ | .seReg _ _ | .sneReg _ _ | .skp _ | .sknp _ =>
        t.pc = s.pc + 2 ∨ t.pc = s.pc + 4
    | _ => t.pc = s.pc + 2

/-! ### Index register and memory (spec/42_index_memory.md, spec/20_memory.md) -/

/-- R112, R113, R114: the three writers of I. -/
def Obligations.IndexRegisterResults : Prop :=
  ∀ (nnn : Addr) (x : Reg) (s : State),
    hasWord (.ldI nnn) (0xA000 + nnn.toNat) ∧
    writesWord (.ldI nnn) s .idx State.idx nnn.toNat ∧
    hasWord (.addI x) (0xF01E + 0x100 * x.val) ∧
    writesWord (.addI x) s .idx State.idx ((s.idx.toNat + (s.reg x).toNat) % 2 ^ 16) ∧
    hasWord (.ldF x) (0xF029 + 0x100 * x.val) ∧
    writesWord (.ldF x) s .idx State.idx (5 * (s.reg x).toNat)

/-- R115: LD B stores hundreds, tens and units at I, I+1, I+2, or faults with nothing written. -/
def Obligations.BcdStoresThreeDigits : Prop :=
  ∀ (x : Reg) (s : State), s.mem.wf = true →
    hasWord (.ldB x) (0xF033 + 0x100 * x.val) ∧
    (s.idx.toNat + 2 ≤ 0xFFF →
      ∃ t, exec (.ldB x) s = .next t ∧
        (t.mem.readByte s.idx.toNat).toNat = (s.reg x).toNat / 100 ∧
        (t.mem.readByte (s.idx.toNat + 1)).toNat = (s.reg x).toNat / 10 % 10 ∧
        (t.mem.readByte (s.idx.toNat + 2)).toNat = (s.reg x).toNat % 10 ∧
        changesOnly s t fun p => ∃ j, j < 3 ∧ p = .byte (s.effectiveAddress j)) ∧
    (0xFFF < s.idx.toNat + 2 →
      exec (.ldB x) s =
        .next (s.faultedBy .outOfRangeAddress (.ldB x) (some (max s.idx.toNat 0x1000))))

/-- R116: LD [I], Vx stores V0..V(k-1) at I upward, k = x + 1 or x by `BLOCK_COPY_INCLUSIVE`, or
faults with nothing written. -/
def Obligations.BlockStoreWritesTheFirstRegisters : Prop :=
  ∀ (x : Reg) (s : State) (k : Nat), s.mem.wf = true →
    (s.params.blockCopyInclusive = true → k = x.val + 1) →
    (s.params.blockCopyInclusive = false → k = x.val) →
    hasWord (.ldStore x) (0xF055 + 0x100 * x.val) ∧
    ((k = 0 ∨ s.idx.toNat + k - 1 ≤ 0xFFF) →
      ∃ t, exec (.ldStore x) s = .next t ∧
        (∀ r : Reg, r.val < k → t.mem.readByte (s.effectiveAddress r.val) = s.reg r) ∧
        changesOnly s t fun p => ∃ j, j < k ∧ p = .byte (s.effectiveAddress j)) ∧
    (0 < k → 0xFFF < s.idx.toNat + k - 1 →
      exec (.ldStore x) s =
        .next (s.faultedBy .outOfRangeAddress (.ldStore x) (some (max s.idx.toNat 0x1000))))

/-- R117: LD Vx, [I] loads V0..V(k-1) from I upward, or faults with nothing written. -/
def Obligations.BlockLoadReadsTheFirstRegisters : Prop :=
  ∀ (x : Reg) (s : State) (k : Nat),
    (s.params.blockCopyInclusive = true → k = x.val + 1) →
    (s.params.blockCopyInclusive = false → k = x.val) →
    hasWord (.ldLoad x) (0xF065 + 0x100 * x.val) ∧
    ((k = 0 ∨ s.idx.toNat + k - 1 ≤ 0xFFF) →
      ∃ t, exec (.ldLoad x) s = .next t ∧
        (∀ r : Reg, r.val < k → t.reg r = s.mem.readByte (s.effectiveAddress r.val)) ∧
        changesOnly s t fun p => ∃ r : Reg, r.val < k ∧ p = .reg r) ∧
    (0 < k → 0xFFF < s.idx.toNat + k - 1 →
      exec (.ldLoad x) s =
        .next (s.faultedBy .outOfRangeAddress (.ldLoad x) (some (max s.idx.toNat 0x1000))))

/-- R41: a block store over the word at the new pc is seen by the very next fetch: the next step runs
the instruction the stored registers spell. -/
def Obligations.StoredWordIsFetchedNext : Prop :=
  ∀ (s : State) (x : Reg) (i : Instr), s.mem.wf = true → s.fetches (.ldStore x) →
    s.idx = s.pc + 2 → 2 ≤ blockCount s.params x →
    s.idx.toNat + blockCount s.params x ≤ 0x1000 →
    decode (wordOfBytes (s.reg 0) (s.reg 1)) = .instr i →
    ∃ t, step s = .next t ∧ step t = exec i { t with pc := s.pc + 4 }

/-! ### Display (spec/43_display.md) -/

/-- R124: CLS turns every cell off. -/
def Obligations.ClsClearsEveryCell : Prop :=
  ∀ s : State, hasWord .cls 0x00E0 ∧
    ∃ t, exec .cls s = .next t ∧ (∀ c r, t.cell c r = false) ∧
      changesOnly s t fun p => ∃ c r, p = .cell c r

/-- R120, R121, R123, R125: DRW inverts exactly the cells under the sprite's lit pixels, and VF is 1
iff one of them went from on to off. With n = 0 nothing is drawn and VF is 0, the spec's own decision
D29 (log 20); past 0xFFF it faults with nothing drawn (R111), the spec's own decisions D5 and D34
(log 23). -/
def Obligations.DrawInvertsTheSpritesCells : Prop :=
  ∀ (x y : Reg) (n : Nibble) (s : State),
    hasWord (.drw x y n) (0xD000 + 0x100 * x.val + 0x10 * y.val + n.toNat) ∧
    ((n.toNat = 0 ∨ s.idx.toNat + n.toNat - 1 ≤ 0xFFF) →
      ∃ t, exec (.drw x y n) s = .next t ∧
        (∀ c r, (s.underSprite x y n.toNat c r → t.cell c r = !s.cell c r) ∧
          (¬s.underSprite x y n.toNat c r → t.cell c r = s.cell c r)) ∧
        ((∃ c r, s.cell c r = true ∧ t.cell c r = false) → t.reg regF = 1) ∧
        ((¬∃ c r, s.cell c r = true ∧ t.cell c r = false) → t.reg regF = 0) ∧
        changesOnly s t fun p => p = .reg regF ∨ ∃ c r, p = .cell c r) ∧
    (0 < n.toNat → 0xFFF < s.idx.toNat + n.toNat - 1 →
      exec (.drw x y n) s =
        .next (s.faultedBy .outOfRangeAddress (.drw x y n) (some (max s.idx.toNat 0x1000))))

/-- R125's corner case as its pseudocode gives it: the same sprite drawn twice at the same place
restores the framebuffer, and the second draw gives VF = 1 iff a cell under a lit pixel was off before
the first. (The rule's prose asks only for a lit pixel; with every such cell on before, its own
pseudocode gives 0: log 26.) -/
def Obligations.DrawTwiceRestoresTheFramebuffer : Prop :=
  ∀ (x y : Reg) (n : Nibble) (s t : State), exec (.drw x y n) s = .next t →
    (n.toNat = 0 ∨ s.idx.toNat + n.toNat - 1 ≤ 0xFFF) →
    t.reg x = s.reg x → t.reg y = s.reg y →
    ∃ u, exec (.drw x y n) t = .next u ∧ u.fb = s.fb ∧
      ((∃ c r, s.underSprite x y n.toNat c r ∧ s.cell c r = false) → u.reg regF = 1) ∧
      ((¬∃ c r, s.underSprite x y n.toNat c r ∧ s.cell c r = false) → u.reg regF = 0)

/-- R122: within one draw no two sprite pixels land on one cell, lit or not, so the lit cells are
listed without repeats; and in whatever order they are processed, the draw gives one result: exactly
those cells inverted, and a collision iff one of them was on. -/
def Obligations.DrawDoesNotDependOnPixelOrder : Prop :=
  (∀ (x0 y0 : Byte) (c c' r r' : Nat), c < 8 → c' < 8 → r < 15 → r' < 15 →
    spriteCell x0 y0 c r = spriteCell x0 y0 c' r' → c = c' ∧ r = r') ∧
  (∀ (x0 y0 : Byte) (rows : List Byte), rows.length ≤ 15 →
    (spriteCells x0 y0 0 rows).Nodup ∧
    ∀ (g : Grid) (ps : List (Col × Row)), ps.Perm (spriteCells x0 y0 0 rows) →
      g.draw ps = g.draw (spriteCells x0 y0 0 rows) ∧
      (∀ c r, (g.draw ps).1.cell c r = (g.cell c r ^^ decide ((c, r) ∈ spriteCells x0 y0 0 rows))) ∧
      ((g.draw ps).2 = true ↔ ∃ c r, (c, r) ∈ spriteCells x0 y0 0 rows ∧ g.cell c r = true))

/-! ### Keys and timers (spec/44_keys_timers.md, spec/60_exceptions.md) -/

/-- R135, R137, R138: SKP and SKNP; the key is the one of 0..15 that V[x] names, and a value above 15
names no key, so nothing is pressed. -/
def Obligations.KeySkips : Prop :=
  ∀ (x : Reg) (s : State),
    hasWord (.skp x) (0xE09E + 0x100 * x.val) ∧
    skipsNextWhen (.skp x) s (∃ k : Key, k.val = (s.reg x).toNat ∧ s.key k = true) ∧
    hasWord (.sknp x) (0xE0A1 + 0x100 * x.val) ∧
    skipsNextWhen (.sknp x) s (¬∃ k : Key, k.val = (s.reg x).toNat ∧ s.key k = true)

/-- R139, R141: the reads and writes of the delay timer; no call but a tick, a construction (R163,
R170) or a step that runs LD DT, Vx changes it. -/
def Obligations.DelayTimerTransfers : Prop :=
  ∀ (x : Reg) (s : State),
    hasWord (.ldVxDT x) (0xF007 + 0x100 * x.val) ∧
    writesRegister (.ldVxDT x) s x s.dt ∧
    hasWord (.ldDT x) (0xF015 + 0x100 * x.val) ∧
    (∃ t, exec (.ldDT x) s = .next t ∧ t.dt = s.reg x ∧ changesOnly s t fun p => p = .dt) ∧
    (∀ (c : HostCall) (t : State) (r : Reply), hostCall c s = .next (t, r) → t.dt ≠ s.dt →
      c = .tick ∨ c = .construct ∨ (c = .step ∧ ∃ y, s.fetches (.ldDT y)))

/-- R140: LD Vx, K enters the wait whatever keys are held, and writes no register; steps are then
suspended, the timers keep counting, and a key press gives V[x] its code. -/
def Obligations.KeyReadEntersTheWait : Prop :=
  ∀ (x : Reg) (s : State),
    hasWord (.ldVxK x) (0xF00A + 0x100 * x.val) ∧
    ∃ t, exec (.ldVxK x) s = .next t ∧ t.run = .awaitingKey x ∧
      (changesOnly s t fun p => p = .run) ∧
      hostCall .step t = .next (t, .stepped .suspended) ∧
      (∃ u, hostCall .tick t = .next (u, .ticked u.soundActive) ∧ u.run = .awaitingKey x ∧
        u.dt.toNat = s.dt.toNat - 1 ∧ u.st.toNat = s.st.toNat - 1) ∧
      ∀ k : Key, ∃ u, hostCall (.deliverKey k true) t = .next (u, .nothing) ∧
        (u.reg x).toNat = k.val ∧ u.key k = true ∧ u.run = .running ∧ u.pc = s.pc

/-- R136, with R140, R162 and R170: a step that runs LD Vx, K enters the wait, and nothing else does;
a key press leaves it, with its code in the recorded register, and nothing else does, but for the
construction of a new engine; steps are inert during it; `Faulted` is entered only from `Running`. -/
def Obligations.OnlyAKeyPressEndsTheWait : Prop :=
  (∀ (s : State) (d : Reg), s.fetches (.ldVxK d) →
    ∃ t r, hostCall .step s = .next (t, r) ∧ t.run = .awaitingKey d) ∧
  (∀ (s : State) (d : Reg) (k : Key), s.run = .awaitingKey d →
    ∃ t r, hostCall (.deliverKey k true) s = .next (t, r) ∧ t.run = .running ∧
      (t.reg d).toNat = k.val ∧ t.key k = true) ∧
  (∀ (c : HostCall) (s t : State) (r : Reply) (d : Reg), hostCall c s = .next (t, r) →
    t.run = .awaitingKey d → s.run ≠ .awaitingKey d → c = .step ∧ s.fetches (.ldVxK d)) ∧
  (∀ (c : HostCall) (s t : State) (r : Reply) (d : Reg), hostCall c s = .next (t, r) →
    s.run = .awaitingKey d → t.run ≠ .awaitingKey d → c ≠ .construct →
    ∃ k : Key, c = .deliverKey k true ∧ t.run = .running ∧ (t.reg d).toNat = k.val ∧ t.key k = true) ∧
  (∀ (s : State) (d : Reg), s.run = .awaitingKey d →
    hostCall .step s = .next (s, .stepped .suspended)) ∧
  (∀ (c : HostCall) (s t : State) (r : Reply) (f : FaultRecord), hostCall c s = .next (t, r) →
    t.run = .faulted f → s.run ≠ .faulted f → c = .step ∧ s.run = .running)

/-- R160: a tick, in every run state. -/
def Obligations.TickCountsBothTimersDown : Prop :=
  ∀ s : State, ∃ t, hostCall .tick s = .next (t, .ticked t.soundActive) ∧
    (t.soundActive = true ↔ 0 < s.st.toNat) ∧
    t.st.toNat = s.st.toNat - 1 ∧ t.dt.toNat = s.dt.toNat - 1 ∧
    changesOnly s t fun p => p = .soundActive ∨ p = .st ∨ p = .dt

/-- R142: LD ST, Vx writes the sound timer and not the sound output. In every run of calls after it,
whatever the steps, keys and loads between the ticks, that runs no later LD ST, Vx and constructs no
new engine, exactly the next V[x] ticks report sound, and each tick takes 1 from the timer down
to 0. -/
def Obligations.SoundLastsAsManyTicksAsST : Prop :=
  ∀ (x : Reg) (s : State),
    hasWord (.ldST x) (0xF018 + 0x100 * x.val) ∧
    ∃ t, exec (.ldST x) s = .next t ∧ t.st = s.reg x ∧ (changesOnly s t fun p => p = .st) ∧
      ∀ cs : List HostCall, soundUndisturbed cs t →
        (∃ u, runCalls cs t = .next u ∧ u.st.toNat = (s.reg x).toNat - cs.count .tick) ∧
        tickReports cs t =
          (List.range (cs.count .tick)).map fun k => decide (k < (s.reg x).toNat)

/-- R162: `deliver_key` sets the latch, and a press ends a wait. -/
def Obligations.DeliverKeySetsTheLatchAndResumes : Prop :=
  ∀ (s : State) (code : Key) (pressed : Bool),
    ∃ t, hostCall (.deliverKey code pressed) s = .next (t, .nothing) ∧ t.key code = pressed ∧
      (∀ d, pressed = true → s.run = .awaitingKey d →
        (t.reg d).toNat = code.val ∧ t.run = .running ∧
        changesOnly s t fun p => p = .key code ∨ p = .reg d ∨ p = .run) ∧
      ((pressed = false ∨ ∀ d, s.run ≠ .awaitingKey d) →
        changesOnly s t fun p => p = .key code)

/-! ### Loads and accessors (spec/60_exceptions.md) -/

/-- R164, R165: a load writes byte i at the address plus i and nothing else, or is refused as a whole
when it would pass 0xFFF. That `load_bytes` may be called in any state, and not in construction only,
is the model's reading of R163 (log 24). -/
def Obligations.LoadsWriteAllOrNothing : Prop :=
  ∀ (s : State) (a : Nat) (bytes : List Byte), s.mem.wf = true →
    (∀ c, (c = .loadBytes a bytes ∨ (a = 0x200 ∧ c = .loadProgram bytes)) →
      (a + bytes.length ≤ 0x1000 →
        ∃ t, hostCall c s = .next (t, .ok) ∧
          (∀ (i : Nat) (h : i < bytes.length), t.mem.readByte (a + i) = bytes[i]) ∧
          changesOnly s t fun p => ∃ i, i < bytes.length ∧ p = .byte (a + i)) ∧
      (0x1000 < a + bytes.length → hostCall c s = .next (s, .refused)))

/-- R166, R167: the accessors return copies and change nothing; a word is big-endian. -/
def Obligations.AccessorsReadWithoutEffect : Prop :=
  ∀ s : State,
    (∀ r, hostCall (.readRegister r) s = .next (s, .byte (s.reg r))) ∧
    hostCall .readIndex s = .next (s, .word s.idx) ∧
    hostCall .readPc s = .next (s, .word s.pc) ∧
    (∀ a, hostCall (.readByte a) s = .next (s, .byte (s.mem.readByte a.val))) ∧
    (∀ a, ∃ w : Word, hostCall (.readWord a) s = .next (s, .word w) ∧
      w.toNat = 0x100 * (s.mem.readByte a.val).toNat + (s.mem.readByte (a.val + 1)).toNat) ∧
    (∃ g : Grid, hostCall .readFramebuffer s = .next (s, .framebuffer g) ∧
      ∀ c r, g.cell c r = s.cell c r)

/-! ### Construction (spec/10_state.md R28, spec/70_reset_and_hazards.md) -/

/-- R28 (and R163, R170 for the host's call): every piece of state of a new engine, for every value of
the parameters. I, the stack, the timers and the sound output have the values of the spec's own
decision D16 (log 15). That a new engine keeps the parameters of the old one is the model's choice
(log 3). -/
def Obligations.ConstructionValues : Prop :=
  ∀ (p : Params) (s : State),
    (s = State.construct p ∨ ∃ u r, u.params = p ∧ hostCall .construct u = .next (s, r)) →
    (∀ a (h : a < 80), s.mem.readByte a = p.font[a]) ∧
    (∀ a, 80 ≤ a → a < 0x1000 → s.mem.readByte a = 0) ∧
    (∀ r, s.reg r = 0) ∧ s.idx = 0 ∧ s.pc = 0x200 ∧ s.stack = [] ∧ s.dt = 0 ∧ s.st = 0 ∧
    s.soundActive = false ∧ (∀ c r, s.cell c r = false) ∧ (∀ k, s.key k = false) ∧
    s.run = .running ∧ s.params = p

/-- R173: an engine stepped with nothing loaded runs 1792 no-ops to 0x1000, and the next fetch
faults. -/
def Obligations.EmptyMemoryRunsToTheEndAndFaults : Prop :=
  (∀ k ≤ 1792, Host.Core.run core k core.reset =
    .next { State.reset with pc := BitVec.ofNat 16 (0x200 + 2 * k) }) ∧
  Host.Core.run core 1793 core.reset =
    .next { State.reset with
      pc := 0x1000, run := .faulted ⟨.outOfRangeAddress, 0x1000, none, some 0x1000⟩ }

/-! ### Invariants and whole-machine rules -/

/-- The reset state meets the invariant. -/
def Obligations.ResetMeetsTheInvariant : Prop := State.reset.inv = true

/-- From every state that meets the invariant, a step gives a state that meets it: memory stays in
its canonical form, the stack within its depth, a fault record in agreement with the state
(R18, R36, R150, R151, R153). -/
def Obligations.StepKeepsTheInvariant : Prop :=
  ∀ s : State, s.inv = true → ∃ t, step s = .next t ∧ t.inv = true

/-- From every state that meets the invariant, every list of host calls, in any interleaving (R161),
runs to its end in a state that meets it. -/
def Obligations.EveryRunOfCallsKeepsTheInvariant : Prop :=
  ∀ (cs : List HostCall) (s : State), s.inv = true → ∃ t, runCalls cs s = .next t ∧ t.inv = true

/-- R15 to R24, R35, R79: over all instructions, which of them write each part of the state: registers
(VF among them), memory, I, pc, stack, timers, framebuffer and `run`; none writes the latch or the
sound output. The parameters (log 3) and the count of draws (log 4) are the model's own fields. -/
def Obligations.OnlyTheNamedInstructionsWriteEachPart : Prop :=
  ∀ (i : Instr) (s t : State), exec i s = .next t →
    (t.mem ≠ s.mem → ∃ x, i = .ldB x ∨ i = .ldStore x) ∧
    (t.idx ≠ s.idx → (∃ nnn, i = .ldI nnn) ∨ ∃ x, i = .addI x ∨ i = .ldF x) ∧
    (t.stack ≠ s.stack → (∃ nnn, i = .call nnn) ∨ i = .ret) ∧
    (t.dt ≠ s.dt → ∃ x, i = .ldDT x) ∧
    (t.st ≠ s.st → ∃ x, i = .ldST x) ∧
    (t.fb ≠ s.fb → i = .cls ∨ ∃ x y n, i = .drw x y n) ∧
    (t.draws ≠ s.draws → ∃ x kk, i = .rnd x kk) ∧
    t.soundActive = s.soundActive ∧ t.keys = s.keys ∧ t.params = s.params ∧
    (∀ r, t.reg r ≠ s.reg r →
      match i with
      | .ldImm x _ | .addImm x _ | .rnd x _ | .ldVxDT x => r = x
      | .ldReg x _ | .orReg x _ | .andReg x _ | .xorReg x _ => r = x
      | .addReg x _ | .subReg x _ | .shr x _ | .subn x _ | .shl x _ => r = x ∨ r = regF
      | .drw _ _ _ => r = regF
      | .ldLoad x => r.val < blockCount s.params x
      | _ => False) ∧
    (t.pc ≠ s.pc →
      match i with
      | .jp _ | .call _ | .ret | .jpV0 _ => True
      | .seImm _ _ | .sneImm _ _ | .seReg _ _ | .sneReg _ _ | .skp _ | .sknp _ => True
      | _ => False) ∧
    (t.run ≠ s.run →
      match i with
      | .ldVxK x => t.run = .awaitingKey x
      | .call _ | .ret | .drw _ _ _ | .ldB _ | .ldStore _ | .ldLoad _ => ∃ f, t.run = .faulted f
      | _ => False)

/-- R20, R21: no instruction reads the sound timer or the sound output: with other values there,
every instruction but LD ST, Vx does the same and leaves them. -/
def Obligations.SoundStateIsNeverRead : Prop :=
  ∀ (i : Instr) (s t : State) (v : Byte) (b : Bool), (∀ x, i ≠ .ldST x) → exec i s = .next t →
    exec i { s with st := v, soundActive := b } = .next { t with st := v, soundActive := b }

/-- R177, R67: at an ended state a step changes nothing: a self-jump runs and stays, a faulted or
waiting engine is inert. -/
def Obligations.StepsAtAnEndedStateChangeNothing : Prop :=
  ∀ (s : State) (e : RunEnd), s.ended = some e → step s = .next s

/-! ### The conditions on the host (spec/70_reset_and_hazards.md R175) -/

/-- R175 item 2, with R160 and R161: under every host that keeps ticking (the fairness assumption,
log 27), whatever it calls between the ticks, the delay timer runs down to 0 and stays there, as long
as no new engine is constructed and no step runs LD DT, Vx; under a host that never ticks it never
changes. -/
def Obligations.DelayRunsOutUnderAHostThatKeepsTicking : Prop :=
  (∀ (h : CallSequence) (s : State), h.keepsTicking → h.delayUndisturbed s →
    ∃ n, ∀ m, n ≤ m → ∃ t, h.runTo m s = .next t ∧ t.dt = 0) ∧
  (∀ (h : CallSequence) (s : State), (∀ n, h n ≠ .tick) → h.delayUndisturbed s →
    ∀ m, ∃ t, h.runTo m s = .next t ∧ t.dt = s.dt)

/-- R175 item 3, with R136 and R162: under a host that keeps the engine, a waiting engine leaves its
wait at some time iff the host delivers a key press. -/
def Obligations.KeyWaitEndsIffTheHostPressesAKey : Prop :=
  ∀ (h : CallSequence) (s : State) (d : Reg), h.keepsTheEngine → s.run = .awaitingKey d →
    (h.pressesAKey ↔ ∃ n t, h.runTo n s = .next t ∧ t.run ≠ .awaitingKey d)
end

