-- ==== Sys2Proof/Laws/Decode.lean ====
section
/-! SUPPORT. The fields of the layouts, the layouts of the fields, and what follows for decode and
encode: every decoded instruction is well-formed and encodes to its word. -/

namespace Sys2Proof

/-! ### Register numbers -/

@[simp] theorem regOfNibble_nibbleOfReg (r : Reg) : regOfNibble (nibbleOfReg r) = r := by
  revert r; decide

@[simp] theorem nibbleOfReg_regOfNibble (b : Nibble) : nibbleOfReg (regOfNibble b) = b := by
  revert b; decide

/-! ### A layout as a number -/

theorem append_toNat {m n : Nat} (a : BitVec m) (b : BitVec n) :
    (a ++ b).toNat = a.toNat * 2 ^ n + b.toNat := by
  rw [BitVec.toNat_append, ← Nat.shiftLeft_add_eq_or_of_lt b.isLt, Nat.shiftLeft_eq]

theorem nibbleOfReg_toNat (x : Reg) : (nibbleOfReg x).toNat = x.val := by
  have := x.isLt
  simp [nibbleOfReg]

theorem layoutA_toNat (t : Nibble) (a : Addr) : (layoutA t a).toNat = 0x1000 * t.toNat + a.toNat := by
  rw [layoutA, append_toNat]; omega

theorem layoutXK_toNat (t : Nibble) (x : Reg) (kk : Byte) :
    (layoutXK t x kk).toNat = 0x1000 * t.toNat + 0x100 * x.val + kk.toNat := by
  rw [layoutXK, append_toNat, append_toNat, nibbleOfReg_toNat]; omega

theorem layoutXYN_toNat (t : Nibble) (x y : Reg) (n : Nibble) :
    (layoutXYN t x y n).toNat = 0x1000 * t.toNat + 0x100 * x.val + 0x10 * y.val + n.toNat := by
  rw [layoutXYN, append_toNat, append_toNat, append_toNat, nibbleOfReg_toNat, nibbleOfReg_toNat]; omega

/-- The fields of a word as parts of its number (R47). -/
theorem fieldT_toNat (op : Word) : (fieldT op).toNat = op.toNat / 0x1000 := by
  have := op.isLt
  simp [fieldT, Nat.shiftRight_eq_div_pow]
  omega

theorem fieldX_val (op : Word) : (fieldX op).val = op.toNat / 0x100 % 16 := by
  simp [fieldX, regOfNibble, Nat.shiftRight_eq_div_pow]

theorem fieldY_val (op : Word) : (fieldY op).val = op.toNat / 0x10 % 16 := by
  simp [fieldY, regOfNibble, Nat.shiftRight_eq_div_pow]

theorem fieldN_toNat (op : Word) : (fieldN op).toNat = op.toNat % 16 := by simp [fieldN]

theorem fieldKK_toNat (op : Word) : (fieldKK op).toNat = op.toNat % 256 := by simp [fieldKK]

theorem fieldNNN_toNat (op : Word) : (fieldNNN op).toNat = op.toNat % 4096 := by simp [fieldNNN]

/-! ### Fields of a layout -/

@[simp] theorem fieldT_layoutA (t : Nibble) (a : Addr) : fieldT (layoutA t a) = t := by
  apply BitVec.eq_of_toNat_eq
  have := a.isLt
  rw [fieldT_toNat, layoutA_toNat]; omega

@[simp] theorem fieldNNN_layoutA (t : Nibble) (a : Addr) : fieldNNN (layoutA t a) = a := by
  apply BitVec.eq_of_toNat_eq
  have := a.isLt
  rw [fieldNNN_toNat, layoutA_toNat]; omega

@[simp] theorem fieldT_layoutXK (t : Nibble) (x : Reg) (kk : Byte) : fieldT (layoutXK t x kk) = t := by
  apply BitVec.eq_of_toNat_eq
  have := x.isLt; have := kk.isLt
  rw [fieldT_toNat, layoutXK_toNat]; omega

@[simp] theorem fieldX_layoutXK (t : Nibble) (x : Reg) (kk : Byte) : fieldX (layoutXK t x kk) = x := by
  apply Fin.ext
  have := x.isLt; have := kk.isLt
  rw [fieldX_val, layoutXK_toNat]; omega

@[simp] theorem fieldKK_layoutXK (t : Nibble) (x : Reg) (kk : Byte) : fieldKK (layoutXK t x kk) = kk := by
  apply BitVec.eq_of_toNat_eq
  have := kk.isLt
  rw [fieldKK_toNat, layoutXK_toNat]; omega

@[simp] theorem fieldT_layoutXYN (t : Nibble) (x y : Reg) (n : Nibble) : fieldT (layoutXYN t x y n) = t := by
  apply BitVec.eq_of_toNat_eq
  have := x.isLt; have := y.isLt; have := n.isLt
  rw [fieldT_toNat, layoutXYN_toNat]; omega

@[simp] theorem fieldX_layoutXYN (t : Nibble) (x y : Reg) (n : Nibble) : fieldX (layoutXYN t x y n) = x := by
  apply Fin.ext
  have := x.isLt; have := y.isLt; have := n.isLt
  rw [fieldX_val, layoutXYN_toNat]; omega

@[simp] theorem fieldY_layoutXYN (t : Nibble) (x y : Reg) (n : Nibble) : fieldY (layoutXYN t x y n) = y := by
  apply Fin.ext
  have := y.isLt; have := n.isLt
  rw [fieldY_val, layoutXYN_toNat]; omega

@[simp] theorem fieldN_layoutXYN (t : Nibble) (x y : Reg) (n : Nibble) : fieldN (layoutXYN t x y n) = n := by
  apply BitVec.eq_of_toNat_eq
  have := n.isLt
  rw [fieldN_toNat, layoutXYN_toNat]; omega

/-! ### A word is the layout of its fields -/

theorem layoutA_of_fields {op : Word} {k : Nat} (h : (fieldT op).toNat = k) :
    layoutA (BitVec.ofNat 4 k) (fieldNNN op) = op := by
  apply BitVec.eq_of_toNat_eq
  have := op.isLt
  rw [layoutA_toNat, fieldNNN_toNat, BitVec.toNat_ofNat, ← h, fieldT_toNat]
  omega

theorem layoutXK_of_fields {op : Word} {k : Nat} (h : (fieldT op).toNat = k) :
    layoutXK (BitVec.ofNat 4 k) (fieldX op) (fieldKK op) = op := by
  apply BitVec.eq_of_toNat_eq
  have := op.isLt
  rw [layoutXK_toNat, fieldX_val, fieldKK_toNat, BitVec.toNat_ofNat, ← h, fieldT_toNat]
  omega

theorem layoutXKsub_of_fields {op : Word} {k j : Nat} (h : (fieldT op).toNat = k)
    (hj : (fieldKK op).toNat = j) : layoutXK (BitVec.ofNat 4 k) (fieldX op) (BitVec.ofNat 8 j) = op := by
  have e : BitVec.ofNat 8 j = fieldKK op := by rw [← hj]; simp
  rw [e]; exact layoutXK_of_fields h

theorem layoutXYN_of_fields {op : Word} {k : Nat} (h : (fieldT op).toNat = k) :
    layoutXYN (BitVec.ofNat 4 k) (fieldX op) (fieldY op) (fieldN op) = op := by
  apply BitVec.eq_of_toNat_eq
  have := op.isLt
  rw [layoutXYN_toNat, fieldX_val, fieldY_val, fieldN_toNat, BitVec.toNat_ofNat, ← h, fieldT_toNat]
  omega

theorem layoutXYNsub_of_fields {op : Word} {k j : Nat} (h : (fieldT op).toNat = k)
    (hj : (fieldN op).toNat = j) :
    layoutXYN (BitVec.ofNat 4 k) (fieldX op) (fieldY op) (BitVec.ofNat 4 j) = op := by
  have e : BitVec.ofNat 4 j = fieldN op := by rw [← hj]; simp
  rw [e]; exact layoutXYN_of_fields h

/-! ### Bytes of a word -/

theorem wordOfBytes_toNat (hi lo : Byte) : (wordOfBytes hi lo).toNat = 0x100 * hi.toNat + lo.toNat := by
  rw [wordOfBytes, append_toNat]; omega

theorem highByte_toNat (op : Word) : (highByte op).toNat = op.toNat / 0x100 := by
  have := op.isLt
  simp [highByte, Nat.shiftRight_eq_div_pow]
  omega

theorem lowByte_toNat (op : Word) : (lowByte op).toNat = op.toNat % 0x100 := by simp [lowByte]

@[simp] theorem wordOfBytes_bytes (op : Word) : wordOfBytes (highByte op) (lowByte op) = op := by
  apply BitVec.eq_of_toNat_eq
  rw [wordOfBytes_toNat, highByte_toNat, lowByte_toNat]; omega

@[simp] theorem highByte_wordOfBytes (hi lo : Byte) : highByte (wordOfBytes hi lo) = hi := by
  apply BitVec.eq_of_toNat_eq
  have := lo.isLt
  rw [highByte_toNat, wordOfBytes_toNat]; omega

@[simp] theorem lowByte_wordOfBytes (hi lo : Byte) : lowByte (wordOfBytes hi lo) = lo := by
  apply BitVec.eq_of_toNat_eq
  have := lo.isLt
  rw [lowByte_toNat, wordOfBytes_toNat]; omega

/-! ### What a word decodes to -/

/-- What is right about a decoded word: an instruction is well-formed and encodes to the word, an
unknown is reported as itself. -/
def Decoded.rightFor (op : Word) : Decoded → Prop
  | .instr i => encode i = op ∧ i.wf = true
  | .unknown u => u = op

/-- The last family: a top nibble that is none of 0..E is F. -/
theorem fieldT_eq_F {op : Word} (h0 : (fieldT op).toNat ≠ 0x0) (h1 : (fieldT op).toNat ≠ 0x1)
    (h2 : (fieldT op).toNat ≠ 0x2) (h3 : (fieldT op).toNat ≠ 0x3) (h4 : (fieldT op).toNat ≠ 0x4)
    (h5 : (fieldT op).toNat ≠ 0x5) (h6 : (fieldT op).toNat ≠ 0x6) (h7 : (fieldT op).toNat ≠ 0x7)
    (h8 : (fieldT op).toNat ≠ 0x8) (h9 : (fieldT op).toNat ≠ 0x9) (hA : (fieldT op).toNat ≠ 0xA)
    (hB : (fieldT op).toNat ≠ 0xB) (hC : (fieldT op).toNat ≠ 0xC) (hD : (fieldT op).toNat ≠ 0xD)
    (hE : (fieldT op).toNat ≠ 0xE) : (fieldT op).toNat = 0xF := by
  have := (fieldT op).isLt
  omega

theorem decode0_right {op : Word} (h : (fieldT op).toNat = 0x0) : (decode0 op).rightFor op := by
  unfold decode0
  split
  · rename_i e; exact ⟨e.symm, rfl⟩
  · split
    · rename_i e; exact ⟨e.symm, rfl⟩
    · rename_i n0 nE
      have hop : layoutA 0x0 (fieldNNN op) = op := layoutA_of_fields h
      refine ⟨hop, ?_⟩
      have e0 : fieldNNN op ≠ 0x0E0#12 := fun e => n0 (by rw [← hop, e]; rfl)
      have eE : fieldNNN op ≠ 0x0EE#12 := fun e => nE (by rw [← hop, e]; rfl)
      simp [Instr.wf, e0, eE]

theorem decode5_right {op : Word} (h : (fieldT op).toNat = 0x5) : (decode5 op).rightFor op := by
  unfold decode5
  split
  · exact ⟨layoutXYNsub_of_fields h ‹_›, rfl⟩
  · rfl

theorem decode8_right {op : Word} (h : (fieldT op).toNat = 0x8) : (decode8 op).rightFor op := by
  unfold decode8
  split <;> first | exact ⟨layoutXYNsub_of_fields h ‹_›, rfl⟩ | rfl

theorem decode9_right {op : Word} (h : (fieldT op).toNat = 0x9) : (decode9 op).rightFor op := by
  unfold decode9
  split
  · exact ⟨layoutXYNsub_of_fields h ‹_›, rfl⟩
  · rfl

theorem decodeE_right {op : Word} (h : (fieldT op).toNat = 0xE) : (decodeE op).rightFor op := by
  unfold decodeE
  split <;> first | exact ⟨layoutXKsub_of_fields h ‹_›, rfl⟩ | rfl

theorem decodeF_right {op : Word} (h : (fieldT op).toNat = 0xF) : (decodeF op).rightFor op := by
  unfold decodeF
  split <;> first | exact ⟨layoutXKsub_of_fields h ‹_›, rfl⟩ | rfl

theorem decode_right (op : Word) : (decode op).rightFor op := by
  unfold decode
  split
  case h_1 h => exact decode0_right h
  case h_2 h => exact ⟨layoutA_of_fields h, rfl⟩
  case h_3 h => exact ⟨layoutA_of_fields h, rfl⟩
  case h_4 h => exact ⟨layoutXK_of_fields h, rfl⟩
  case h_5 h => exact ⟨layoutXK_of_fields h, rfl⟩
  case h_6 h => exact decode5_right h
  case h_7 h => exact ⟨layoutXK_of_fields h, rfl⟩
  case h_8 h => exact ⟨layoutXK_of_fields h, rfl⟩
  case h_9 h => exact decode8_right h
  case h_10 h => exact decode9_right h
  case h_11 h => exact ⟨layoutA_of_fields h, rfl⟩
  case h_12 h => exact ⟨layoutA_of_fields h, rfl⟩
  case h_13 h => exact ⟨layoutXK_of_fields h, rfl⟩
  case h_14 h => exact ⟨layoutXYN_of_fields h, rfl⟩
  case h_15 h => exact decodeE_right h
  case h_16 h0 h1 h2 h3 h4 h5 h6 h7 h8 h9 hA hB hC hD hE =>
    exact decodeF_right (fieldT_eq_F h0 h1 h2 h3 h4 h5 h6 h7 h8 h9 hA hB hC hD hE)

/-- No bit of a word is dropped: a decoded instruction encodes to its word. -/
theorem encode_of_decode {op : Word} {i : Instr} (h : decode op = .instr i) : encode i = op := by
  have := decode_right op
  rw [h] at this
  exact this.1

/-- Only well-formed instructions are decoded. -/
theorem wf_of_decode {op : Word} {i : Instr} (h : decode op = .instr i) : i.wf = true := by
  have := decode_right op
  rw [h] at this
  exact this.2

/-- A word that decodes to an unknown is reported as itself (R52). -/
theorem decode_unknown_self {op u : Word} (h : decode op = .unknown u) : u = op := by
  have := decode_right op
  rwa [h] at this

/-! ### Decoding a layout: the family by the top nibble -/

theorem decode_family {op : Word} {t : Nibble} (h : fieldT op = t) :
    decode op = match t.toNat with
      | 0x0 => decode0 op
      | 0x1 => .instr (.jp (fieldNNN op))
      | 0x2 => .instr (.call (fieldNNN op))
      | 0x3 => .instr (.seImm (fieldX op) (fieldKK op))
      | 0x4 => .instr (.sneImm (fieldX op) (fieldKK op))
      | 0x5 => decode5 op
      | 0x6 => .instr (.ldImm (fieldX op) (fieldKK op))
      | 0x7 => .instr (.addImm (fieldX op) (fieldKK op))
      | 0x8 => decode8 op
      | 0x9 => decode9 op
      | 0xA => .instr (.ldI (fieldNNN op))
      | 0xB => .instr (.jpV0 (fieldNNN op))
      | 0xC => .instr (.rnd (fieldX op) (fieldKK op))
      | 0xD => .instr (.drw (fieldX op) (fieldY op) (fieldN op))
      | 0xE => decodeE op
      | _ => decodeF op := by
  subst h; rfl

end Sys2Proof
end

