-- ==== Sys2Proof/Laws/Memory.lean ====
section
/-! SUPPORT. The laws of memory: the canonical form is kept, a read after a write, equal reads make
equal memories, the range check, and memory after construction. -/

namespace Sys2Proof.Machine

/-! ### The canonical form -/

theorem Memory.wfFrom_cons {lo k : Nat} {v : Byte} {m : Memory} :
    Memory.wfFrom lo ((k, v) :: m) = true ↔
      lo ≤ k ∧ k < memorySize ∧ v ≠ Memory.initial k ∧ Memory.wfFrom (k + 1) m = true := by
  simp [Memory.wfFrom, and_assoc]

theorem Memory.wfFrom_weaken {lo lo' : Nat} {m : Memory} (h : Memory.wfFrom lo m = true) (hl : lo' ≤ lo) :
    Memory.wfFrom lo' m = true := by
  cases m with
  | nil => rfl
  | cons c m =>
    obtain ⟨k, v⟩ := c
    rw [Memory.wfFrom_cons] at h ⊢
    exact ⟨hl.trans h.1, h.2⟩

theorem Memory.wf_nil : Memory.wf [] = true := rfl

/-- Below the first listed address, memory reads as unlisted. -/
theorem Memory.readByte_below {lo a : Nat} {m : Memory} (h : Memory.wfFrom lo m = true) (ha : a < lo) :
    m.readByte a = Memory.initial a := by
  induction m generalizing lo with
  | nil => rfl
  | cons c m ih =>
    obtain ⟨k, v⟩ := c
    rw [Memory.wfFrom_cons] at h
    rw [Memory.readByte, if_neg (by omega)]
    exact ih h.2.2.2 (by omega)

theorem Memory.consCell_wfFrom {lo a : Nat} {v : Byte} {m : Memory} (h : Memory.wfFrom (a + 1) m = true)
    (hl : lo ≤ a) (ha : a < memorySize) : Memory.wfFrom lo (Memory.consCell a v m) = true := by
  unfold Memory.consCell
  split
  · exact Memory.wfFrom_weaken h (by omega)
  · exact Memory.wfFrom_cons.2 ⟨hl, ha, ‹_›, h⟩

theorem Memory.readByte_consCell {a b : Nat} {v : Byte} {m : Memory} (h : Memory.wfFrom (a + 1) m = true) :
    (Memory.consCell a v m).readByte b = if b = a then v else m.readByte b := by
  unfold Memory.consCell
  split
  · rename_i hv
    split
    · rename_i hb; rw [hb, Memory.readByte_below h (by omega), hv]
    · rfl
  · rw [Memory.readByte]
    simp [eq_comm]

theorem Memory.writeByte_wfFrom {lo a : Nat} {v : Byte} {m : Memory} (h : Memory.wfFrom lo m = true)
    (hl : lo ≤ a) (ha : a < memorySize) : Memory.wfFrom lo (m.writeByte a v) = true := by
  induction m generalizing lo with
  | nil => exact Memory.consCell_wfFrom rfl hl ha
  | cons c m ih =>
    obtain ⟨k, w⟩ := c
    have hc := Memory.wfFrom_cons.1 h
    unfold Memory.writeByte
    split
    · exact Memory.consCell_wfFrom (Memory.wfFrom_cons.2 ⟨by omega, hc.2⟩) hl ha
    · split
      · rename_i e; subst e; exact Memory.consCell_wfFrom hc.2.2.2 hl ha
      · exact Memory.wfFrom_cons.2 ⟨hc.1, hc.2.1, hc.2.2.1, ih hc.2.2.2 (by omega)⟩

/-- A write keeps the canonical form. -/
theorem Memory.writeByte_wf {a : Nat} {v : Byte} {m : Memory} (h : m.wf = true) (ha : a < memorySize) :
    (m.writeByte a v).wf = true := Memory.writeByte_wfFrom h (Nat.zero_le _) ha

theorem Memory.readByte_writeByte_from {lo a b : Nat} {v : Byte} {m : Memory}
    (h : Memory.wfFrom lo m = true) :
    (m.writeByte a v).readByte b = if b = a then v else m.readByte b := by
  induction m generalizing lo with
  | nil => exact Memory.readByte_consCell rfl
  | cons c m ih =>
    obtain ⟨k, w⟩ := c
    have hc := Memory.wfFrom_cons.1 h
    unfold Memory.writeByte
    split
    · rename_i hlt
      exact Memory.readByte_consCell (Memory.wfFrom_cons.2 ⟨by omega, hc.2⟩)
    · split
      · rename_i e
        subst e
        rw [Memory.readByte_consCell hc.2.2.2]
        split
        · rfl
        · rw [Memory.readByte, if_neg (by omega)]
      · rename_i hlt hne
        rw [Memory.readByte, Memory.readByte, ih hc.2.2.2]
        by_cases hk : k = b
        · rw [if_pos hk, if_pos hk, if_neg (by omega)]
        · rw [if_neg hk, if_neg hk]

/-- A read after a write: the value written at its address, the old byte everywhere else. -/
theorem Memory.readByte_writeByte {a b : Nat} {v : Byte} {m : Memory} (h : m.wf = true) :
    (m.writeByte a v).readByte b = if b = a then v else m.readByte b :=
  Memory.readByte_writeByte_from h

/-! ### Several bytes -/

theorem Memory.writeBytes_wf {a : Nat} {bs : List Byte} {m : Memory} (h : m.wf = true)
    (ha : a + bs.length ≤ memorySize) : (m.writeBytes a bs).wf = true := by
  induction bs generalizing m a with
  | nil => exact h
  | cons b bs ih =>
    simp only [List.length_cons] at ha
    exact ih (Memory.writeByte_wf h (by omega)) (by omega)

theorem Memory.readByte_writeBytes {a b : Nat} {bs : List Byte} {m : Memory} (h : m.wf = true)
    (ha : a + bs.length ≤ memorySize) :
    (m.writeBytes a bs).readByte b =
      if a ≤ b ∧ b < a + bs.length then bs.getD (b - a) 0 else m.readByte b := by
  induction bs generalizing m a with
  | nil =>
    rw [if_neg (by simp)]
    rfl
  | cons c bs ih =>
    simp only [List.length_cons] at ha ⊢
    rw [Memory.writeBytes, ih (Memory.writeByte_wf h (by omega)) (by omega), Memory.readByte_writeByte h]
    by_cases e : b = a
    · subst e
      rw [if_neg (by omega), if_pos rfl, if_pos (by omega)]
      simp
    · rw [if_neg e]
      by_cases hi : a + 1 ≤ b ∧ b < a + 1 + bs.length
      · rw [if_pos hi, if_pos (by omega)]
        have : b - a = (b - (a + 1)) + 1 := by omega
        rw [this, List.getD_cons_succ]
      · rw [if_neg hi, if_neg (by omega)]

@[simp] theorem Memory.length_readBytes (m : Memory) (a n : Nat) : (m.readBytes a n).length = n := by
  simp [Memory.readBytes]

theorem Memory.getD_readBytes {m : Memory} {a n j : Nat} {d : Byte} :
    (m.readBytes a n).getD j d = if j < n then m.readByte (a + j) else d := by
  by_cases h : j < n <;> simp [Memory.readBytes, h]

/-! ### Equal reads make equal memories -/

theorem Memory.ext_from {lo : Nat} {m m' : Memory} (h : Memory.wfFrom lo m = true)
    (h' : Memory.wfFrom lo m' = true) (e : ∀ a, m.readByte a = m'.readByte a) : m = m' := by
  induction m generalizing lo m' with
  | nil =>
    cases m' with
    | nil => rfl
    | cons c m' =>
      obtain ⟨k, v⟩ := c
      have hc := Memory.wfFrom_cons.1 h'
      have := e k
      rw [Memory.readByte, Memory.readByte, if_pos rfl] at this
      exact absurd this.symm hc.2.2.1
  | cons c m ih =>
    obtain ⟨k, v⟩ := c
    have hc := Memory.wfFrom_cons.1 h
    cases m' with
    | nil =>
      have := e k
      rw [Memory.readByte, Memory.readByte, if_pos rfl] at this
      exact absurd this hc.2.2.1
    | cons c' m' =>
      obtain ⟨k', v'⟩ := c'
      have hc' := Memory.wfFrom_cons.1 h'
      rcases Nat.lt_trichotomy k k' with hlt | heq | hgt
      · have := e k
        rw [Memory.readByte, if_pos rfl,
          Memory.readByte_below (Memory.wfFrom_cons.2 ⟨Nat.le_refl k', hc'.2⟩) hlt] at this
        exact absurd this hc.2.2.1
      · subst heq
        have hv := e k
        rw [Memory.readByte, Memory.readByte, if_pos rfl, if_pos rfl] at hv
        subst hv
        have : m = m' := ih hc.2.2.2 hc'.2.2.2 fun a => by
          by_cases ha : a = k
          · subst ha
            rw [Memory.readByte_below hc.2.2.2 (by omega), Memory.readByte_below hc'.2.2.2 (by omega)]
          · have := e a
            rwa [Memory.readByte, Memory.readByte, if_neg (Ne.symm ha), if_neg (Ne.symm ha)] at this
        rw [this]
      · have := e k'
        rw [Memory.readByte_below (Memory.wfFrom_cons.2 ⟨Nat.le_refl k, hc.2⟩) hgt, Memory.readByte,
          if_pos rfl] at this
        exact absurd this.symm hc'.2.2.1

/-! ### The range check (R36, R111) -/

theorem firstOutOfRange_eq (a n : Nat) :
    firstOutOfRange a n = if n = 0 ∨ a + n ≤ memorySize then none else some (max a memorySize) := by
  unfold memorySize
  induction n with
  | zero => rfl
  | succ n ih =>
    have step : firstOutOfRange a (n + 1) =
        (firstOutOfRange a n).or (if 0xFFF < a + n then some (a + n) else none) := by
      unfold firstOutOfRange
      rw [List.range_succ, List.map_append, List.find?_append]
      congr 1
      by_cases h : 0xFFF < a + n <;> simp [h]
    rw [step, ih]
    by_cases h0 : n = 0
    · subst h0
      by_cases h : 0xFFF < a
      · simp [h]; omega
      · simp [h]; omega
    · by_cases h1 : a + n ≤ 0x1000
      · rw [if_pos (Or.inr h1), Option.none_or]
        by_cases h2 : 0xFFF < a + n
        · rw [if_pos h2, if_neg (by omega)]
          congr 1
          omega
        · rw [if_neg h2, if_pos (by omega)]
      · rw [if_neg (show ¬(n = 0 ∨ a + n ≤ 0x1000) by omega), Option.some_or, if_neg (by omega)]

theorem firstOutOfRange_none {a n : Nat} : firstOutOfRange a n = none ↔ n = 0 ∨ a + n ≤ memorySize := by
  rw [firstOutOfRange_eq]; split <;> simp_all

theorem firstOutOfRange_some {a n b : Nat} (h : firstOutOfRange a n = some b) :
    0 < n ∧ memorySize < a + n ∧ b = max a memorySize := by
  rw [firstOutOfRange_eq] at h
  split at h
  · exact absurd h (by simp)
  · simp at h; omega

/-- All of `MemWrite`: the fault at the first bad address, or the bytes written. -/
theorem Memory.checkedWrite_eq (m : Memory) (a : Nat) (bs : List Byte) :
    m.checkedWrite a bs = if bs.length = 0 ∨ a + bs.length ≤ memorySize then .ok (m.writeBytes a bs)
      else .error (max a memorySize) := by
  unfold Memory.checkedWrite
  rw [firstOutOfRange_eq]
  by_cases h : bs.length = 0 ∨ a + bs.length ≤ memorySize
  · rw [if_pos h, if_pos h]
  · rw [if_neg h, if_neg h]

/-- All of `MemRead`: the fault at the first bad address, or the bytes read. -/
theorem Memory.checkedRead_eq (m : Memory) (a n : Nat) :
    m.checkedRead a n = if n = 0 ∨ a + n ≤ memorySize then .ok (m.readBytes a n)
      else .error (max a memorySize) := by
  unfold Memory.checkedRead
  rw [firstOutOfRange_eq]
  by_cases h : n = 0 ∨ a + n ≤ memorySize
  · rw [if_pos h, if_pos h]
  · rw [if_neg h, if_neg h]

/-- All of the word read: the fault at the first bad address, or the big-endian word. -/
theorem Memory.checkedReadWord_eq (m : Memory) (a : Nat) :
    m.checkedReadWord a = if a ≤ 0xFFE then .ok (m.readWord a) else .error (max a memorySize) := by
  unfold Memory.checkedReadWord
  rw [firstOutOfRange_eq]
  unfold memorySize
  by_cases h : a ≤ 0xFFE
  · rw [if_pos h, if_pos (by omega)]
  · rw [if_neg h, if_neg (by omega)]

/-- A checked write keeps the canonical form. -/
theorem Memory.checkedWrite_wf {m m' : Memory} {a : Nat} {bs : List Byte} (h : m.wf = true)
    (e : m.checkedWrite a bs = .ok m') : m'.wf = true := by
  rw [Memory.checkedWrite_eq] at e
  split at e
  · rename_i hr
    cases e
    rcases hr with h0 | hr
    · rw [List.eq_nil_of_length_eq_zero h0]; exact h
    · exact Memory.writeBytes_wf h hr
  · cases e

/-- A host load keeps the canonical form. -/
theorem Memory.hostLoad_wf {m m' : Memory} {a : Nat} {bs : List Byte} (h : m.wf = true)
    (e : m.hostLoad a bs = some m') : m'.wf = true := by
  unfold Memory.hostLoad at e
  split at e
  · cases e; exact Memory.writeBytes_wf h ‹_›
  · cases e

/-! ### Memory after construction (R28, R170) -/

theorem Memory.constructed_wf (font : Vector Byte 80) : (Memory.constructed font).wf = true :=
  Memory.writeBytes_wf Memory.wf_nil (by simp [memorySize])

/-- Above the font the default contents are zero (R32). -/
theorem Memory.initial_above {a : Nat} (h : 80 ≤ a) : Memory.initial a = 0 := by
  have hl : defaultFontBytes.length = 80 := by decide
  simp [Memory.initial, List.getD, List.getElem?_eq_none (hl ▸ h : defaultFontBytes.length ≤ a)]

/-- The constructed memory: `FONT`, and zero above it (R28). -/
theorem Memory.readByte_constructed (font : Vector Byte 80) (a : Nat) :
    (Memory.constructed font).readByte a = if h : a < 80 then font[a] else 0 := by
  unfold Memory.constructed
  rw [Memory.readByte_writeBytes Memory.wf_nil (by simp [memorySize])]
  simp only [Vector.length_toList, Nat.zero_le, true_and, Nat.zero_add, Nat.sub_zero]
  by_cases h : a < 80
  · simp [h]
  · rw [if_neg h, dif_neg h]
    exact Memory.initial_above (by omega)

end Sys2Proof.Machine
end

