-- ==== Sys2Proof/Laws/State.lean ====
section
/-! SUPPORT. One lemma per field per update of the state, true by rfl: no later proof unfolds a record
update. Reads and writes of registers, keys and cells, and the fields of the constructed state. -/

namespace Sys2Proof.Machine

/-! ### `State.setReg` -/

@[simp] theorem State.setReg_mem (s : State) (r : Reg) (v : Byte) : (s.setReg r v).mem = s.mem := rfl
@[simp] theorem State.setReg_regs (s : State) (r : Reg) (v : Byte) : (s.setReg r v).regs = s.regs.set r.val v r.isLt := rfl
@[simp] theorem State.setReg_idx (s : State) (r : Reg) (v : Byte) : (s.setReg r v).idx = s.idx := rfl
@[simp] theorem State.setReg_pc (s : State) (r : Reg) (v : Byte) : (s.setReg r v).pc = s.pc := rfl
@[simp] theorem State.setReg_stack (s : State) (r : Reg) (v : Byte) : (s.setReg r v).stack = s.stack := rfl
@[simp] theorem State.setReg_dt (s : State) (r : Reg) (v : Byte) : (s.setReg r v).dt = s.dt := rfl
@[simp] theorem State.setReg_st (s : State) (r : Reg) (v : Byte) : (s.setReg r v).st = s.st := rfl
@[simp] theorem State.setReg_soundActive (s : State) (r : Reg) (v : Byte) : (s.setReg r v).soundActive = s.soundActive := rfl
@[simp] theorem State.setReg_fb (s : State) (r : Reg) (v : Byte) : (s.setReg r v).fb = s.fb := rfl
@[simp] theorem State.setReg_keys (s : State) (r : Reg) (v : Byte) : (s.setReg r v).keys = s.keys := rfl
@[simp] theorem State.setReg_run (s : State) (r : Reg) (v : Byte) : (s.setReg r v).run = s.run := rfl
@[simp] theorem State.setReg_draws (s : State) (r : Reg) (v : Byte) : (s.setReg r v).draws = s.draws := rfl
@[simp] theorem State.setReg_params (s : State) (r : Reg) (v : Byte) : (s.setReg r v).params = s.params := rfl

/-! ### `State.setRegs` -/

@[simp] theorem State.setRegs_mem (s : State) (bs : List Byte) : (s.setRegs bs).mem = s.mem := rfl
@[simp] theorem State.setRegs_regs (s : State) (bs : List Byte) : (s.setRegs bs).regs = Vector.ofFn fun r : Reg => bs.getD r.val (s.reg r) := rfl
@[simp] theorem State.setRegs_idx (s : State) (bs : List Byte) : (s.setRegs bs).idx = s.idx := rfl
@[simp] theorem State.setRegs_pc (s : State) (bs : List Byte) : (s.setRegs bs).pc = s.pc := rfl
@[simp] theorem State.setRegs_stack (s : State) (bs : List Byte) : (s.setRegs bs).stack = s.stack := rfl
@[simp] theorem State.setRegs_dt (s : State) (bs : List Byte) : (s.setRegs bs).dt = s.dt := rfl
@[simp] theorem State.setRegs_st (s : State) (bs : List Byte) : (s.setRegs bs).st = s.st := rfl
@[simp] theorem State.setRegs_soundActive (s : State) (bs : List Byte) : (s.setRegs bs).soundActive = s.soundActive := rfl
@[simp] theorem State.setRegs_fb (s : State) (bs : List Byte) : (s.setRegs bs).fb = s.fb := rfl
@[simp] theorem State.setRegs_keys (s : State) (bs : List Byte) : (s.setRegs bs).keys = s.keys := rfl
@[simp] theorem State.setRegs_run (s : State) (bs : List Byte) : (s.setRegs bs).run = s.run := rfl
@[simp] theorem State.setRegs_draws (s : State) (bs : List Byte) : (s.setRegs bs).draws = s.draws := rfl
@[simp] theorem State.setRegs_params (s : State) (bs : List Byte) : (s.setRegs bs).params = s.params := rfl

/-! ### `State.setPc` -/

@[simp] theorem State.setPc_mem (s : State) (a : Word) : (s.setPc a).mem = s.mem := rfl
@[simp] theorem State.setPc_regs (s : State) (a : Word) : (s.setPc a).regs = s.regs := rfl
@[simp] theorem State.setPc_idx (s : State) (a : Word) : (s.setPc a).idx = s.idx := rfl
@[simp] theorem State.setPc_pc (s : State) (a : Word) : (s.setPc a).pc = a := rfl
@[simp] theorem State.setPc_stack (s : State) (a : Word) : (s.setPc a).stack = s.stack := rfl
@[simp] theorem State.setPc_dt (s : State) (a : Word) : (s.setPc a).dt = s.dt := rfl
@[simp] theorem State.setPc_st (s : State) (a : Word) : (s.setPc a).st = s.st := rfl
@[simp] theorem State.setPc_soundActive (s : State) (a : Word) : (s.setPc a).soundActive = s.soundActive := rfl
@[simp] theorem State.setPc_fb (s : State) (a : Word) : (s.setPc a).fb = s.fb := rfl
@[simp] theorem State.setPc_keys (s : State) (a : Word) : (s.setPc a).keys = s.keys := rfl
@[simp] theorem State.setPc_run (s : State) (a : Word) : (s.setPc a).run = s.run := rfl
@[simp] theorem State.setPc_draws (s : State) (a : Word) : (s.setPc a).draws = s.draws := rfl
@[simp] theorem State.setPc_params (s : State) (a : Word) : (s.setPc a).params = s.params := rfl

/-! ### `State.advance` -/

@[simp] theorem State.advance_mem (s : State) : s.advance.mem = s.mem := rfl
@[simp] theorem State.advance_regs (s : State) : s.advance.regs = s.regs := rfl
@[simp] theorem State.advance_idx (s : State) : s.advance.idx = s.idx := rfl
@[simp] theorem State.advance_pc (s : State) : s.advance.pc = s.pc + 2 := rfl
@[simp] theorem State.advance_stack (s : State) : s.advance.stack = s.stack := rfl
@[simp] theorem State.advance_dt (s : State) : s.advance.dt = s.dt := rfl
@[simp] theorem State.advance_st (s : State) : s.advance.st = s.st := rfl
@[simp] theorem State.advance_soundActive (s : State) : s.advance.soundActive = s.soundActive := rfl
@[simp] theorem State.advance_fb (s : State) : s.advance.fb = s.fb := rfl
@[simp] theorem State.advance_keys (s : State) : s.advance.keys = s.keys := rfl
@[simp] theorem State.advance_run (s : State) : s.advance.run = s.run := rfl
@[simp] theorem State.advance_draws (s : State) : s.advance.draws = s.draws := rfl
@[simp] theorem State.advance_params (s : State) : s.advance.params = s.params := rfl

/-! ### `State.raise` -/

@[simp] theorem State.raise_mem (s : State) (f : FaultRecord) : (s.raise f).mem = s.mem := rfl
@[simp] theorem State.raise_regs (s : State) (f : FaultRecord) : (s.raise f).regs = s.regs := rfl
@[simp] theorem State.raise_idx (s : State) (f : FaultRecord) : (s.raise f).idx = s.idx := rfl
@[simp] theorem State.raise_pc (s : State) (f : FaultRecord) : (s.raise f).pc = s.pc := rfl
@[simp] theorem State.raise_stack (s : State) (f : FaultRecord) : (s.raise f).stack = s.stack := rfl
@[simp] theorem State.raise_dt (s : State) (f : FaultRecord) : (s.raise f).dt = s.dt := rfl
@[simp] theorem State.raise_st (s : State) (f : FaultRecord) : (s.raise f).st = s.st := rfl
@[simp] theorem State.raise_soundActive (s : State) (f : FaultRecord) : (s.raise f).soundActive = s.soundActive := rfl
@[simp] theorem State.raise_fb (s : State) (f : FaultRecord) : (s.raise f).fb = s.fb := rfl
@[simp] theorem State.raise_keys (s : State) (f : FaultRecord) : (s.raise f).keys = s.keys := rfl
@[simp] theorem State.raise_run (s : State) (f : FaultRecord) : (s.raise f).run = .faulted f := rfl
@[simp] theorem State.raise_draws (s : State) (f : FaultRecord) : (s.raise f).draws = s.draws := rfl
@[simp] theorem State.raise_params (s : State) (f : FaultRecord) : (s.raise f).params = s.params := rfl

/-! ### `State.push` -/

@[simp] theorem State.push_mem (s : State) (a : Word) : (s.push a).mem = s.mem := rfl
@[simp] theorem State.push_regs (s : State) (a : Word) : (s.push a).regs = s.regs := rfl
@[simp] theorem State.push_idx (s : State) (a : Word) : (s.push a).idx = s.idx := rfl
@[simp] theorem State.push_pc (s : State) (a : Word) : (s.push a).pc = s.pc := rfl
@[simp] theorem State.push_stack (s : State) (a : Word) : (s.push a).stack = s.stack ++ [a] := rfl
@[simp] theorem State.push_dt (s : State) (a : Word) : (s.push a).dt = s.dt := rfl
@[simp] theorem State.push_st (s : State) (a : Word) : (s.push a).st = s.st := rfl
@[simp] theorem State.push_soundActive (s : State) (a : Word) : (s.push a).soundActive = s.soundActive := rfl
@[simp] theorem State.push_fb (s : State) (a : Word) : (s.push a).fb = s.fb := rfl
@[simp] theorem State.push_keys (s : State) (a : Word) : (s.push a).keys = s.keys := rfl
@[simp] theorem State.push_run (s : State) (a : Word) : (s.push a).run = s.run := rfl
@[simp] theorem State.push_draws (s : State) (a : Word) : (s.push a).draws = s.draws := rfl
@[simp] theorem State.push_params (s : State) (a : Word) : (s.push a).params = s.params := rfl

/-! ### `State.dropTop` -/

@[simp] theorem State.dropTop_mem (s : State) : s.dropTop.mem = s.mem := rfl
@[simp] theorem State.dropTop_regs (s : State) : s.dropTop.regs = s.regs := rfl
@[simp] theorem State.dropTop_idx (s : State) : s.dropTop.idx = s.idx := rfl
@[simp] theorem State.dropTop_pc (s : State) : s.dropTop.pc = s.pc := rfl
@[simp] theorem State.dropTop_stack (s : State) : s.dropTop.stack = s.stack.dropLast := rfl
@[simp] theorem State.dropTop_dt (s : State) : s.dropTop.dt = s.dt := rfl
@[simp] theorem State.dropTop_st (s : State) : s.dropTop.st = s.st := rfl
@[simp] theorem State.dropTop_soundActive (s : State) : s.dropTop.soundActive = s.soundActive := rfl
@[simp] theorem State.dropTop_fb (s : State) : s.dropTop.fb = s.fb := rfl
@[simp] theorem State.dropTop_keys (s : State) : s.dropTop.keys = s.keys := rfl
@[simp] theorem State.dropTop_run (s : State) : s.dropTop.run = s.run := rfl
@[simp] theorem State.dropTop_draws (s : State) : s.dropTop.draws = s.draws := rfl
@[simp] theorem State.dropTop_params (s : State) : s.dropTop.params = s.params := rfl

/-! ### `State.countDraw` -/

@[simp] theorem State.countDraw_mem (s : State) : s.countDraw.mem = s.mem := rfl
@[simp] theorem State.countDraw_regs (s : State) : s.countDraw.regs = s.regs := rfl
@[simp] theorem State.countDraw_idx (s : State) : s.countDraw.idx = s.idx := rfl
@[simp] theorem State.countDraw_pc (s : State) : s.countDraw.pc = s.pc := rfl
@[simp] theorem State.countDraw_stack (s : State) : s.countDraw.stack = s.stack := rfl
@[simp] theorem State.countDraw_dt (s : State) : s.countDraw.dt = s.dt := rfl
@[simp] theorem State.countDraw_st (s : State) : s.countDraw.st = s.st := rfl
@[simp] theorem State.countDraw_soundActive (s : State) : s.countDraw.soundActive = s.soundActive := rfl
@[simp] theorem State.countDraw_fb (s : State) : s.countDraw.fb = s.fb := rfl
@[simp] theorem State.countDraw_keys (s : State) : s.countDraw.keys = s.keys := rfl
@[simp] theorem State.countDraw_run (s : State) : s.countDraw.run = s.run := rfl
@[simp] theorem State.countDraw_draws (s : State) : s.countDraw.draws = s.draws + 1 := rfl
@[simp] theorem State.countDraw_params (s : State) : s.countDraw.params = s.params := rfl

/-! ### `State.setKey` -/

@[simp] theorem State.setKey_mem (s : State) (k : Key) (b : Bool) : (s.setKey k b).mem = s.mem := rfl
@[simp] theorem State.setKey_regs (s : State) (k : Key) (b : Bool) : (s.setKey k b).regs = s.regs := rfl
@[simp] theorem State.setKey_idx (s : State) (k : Key) (b : Bool) : (s.setKey k b).idx = s.idx := rfl
@[simp] theorem State.setKey_pc (s : State) (k : Key) (b : Bool) : (s.setKey k b).pc = s.pc := rfl
@[simp] theorem State.setKey_stack (s : State) (k : Key) (b : Bool) : (s.setKey k b).stack = s.stack := rfl
@[simp] theorem State.setKey_dt (s : State) (k : Key) (b : Bool) : (s.setKey k b).dt = s.dt := rfl
@[simp] theorem State.setKey_st (s : State) (k : Key) (b : Bool) : (s.setKey k b).st = s.st := rfl
@[simp] theorem State.setKey_soundActive (s : State) (k : Key) (b : Bool) : (s.setKey k b).soundActive = s.soundActive := rfl
@[simp] theorem State.setKey_fb (s : State) (k : Key) (b : Bool) : (s.setKey k b).fb = s.fb := rfl
@[simp] theorem State.setKey_keys (s : State) (k : Key) (b : Bool) : (s.setKey k b).keys = s.keys.set k.val b k.isLt := rfl
@[simp] theorem State.setKey_run (s : State) (k : Key) (b : Bool) : (s.setKey k b).run = s.run := rfl
@[simp] theorem State.setKey_draws (s : State) (k : Key) (b : Bool) : (s.setKey k b).draws = s.draws := rfl
@[simp] theorem State.setKey_params (s : State) (k : Key) (b : Bool) : (s.setKey k b).params = s.params := rfl

/-! ### `State.skipIf` -/

@[simp] theorem State.skipIf_pc (s : State) (c : Bool) : (s.skipIf c).pc = if c then s.pc + 2 else s.pc := by
  cases c <;> rfl
@[simp] theorem State.skipIf_mem (s : State) (c : Bool) : (s.skipIf c).mem = s.mem := by cases c <;> rfl
@[simp] theorem State.skipIf_regs (s : State) (c : Bool) : (s.skipIf c).regs = s.regs := by cases c <;> rfl
@[simp] theorem State.skipIf_idx (s : State) (c : Bool) : (s.skipIf c).idx = s.idx := by cases c <;> rfl
@[simp] theorem State.skipIf_stack (s : State) (c : Bool) : (s.skipIf c).stack = s.stack := by cases c <;> rfl
@[simp] theorem State.skipIf_dt (s : State) (c : Bool) : (s.skipIf c).dt = s.dt := by cases c <;> rfl
@[simp] theorem State.skipIf_st (s : State) (c : Bool) : (s.skipIf c).st = s.st := by cases c <;> rfl
@[simp] theorem State.skipIf_soundActive (s : State) (c : Bool) : (s.skipIf c).soundActive = s.soundActive := by cases c <;> rfl
@[simp] theorem State.skipIf_fb (s : State) (c : Bool) : (s.skipIf c).fb = s.fb := by cases c <;> rfl
@[simp] theorem State.skipIf_keys (s : State) (c : Bool) : (s.skipIf c).keys = s.keys := by cases c <;> rfl
@[simp] theorem State.skipIf_run (s : State) (c : Bool) : (s.skipIf c).run = s.run := by cases c <;> rfl
@[simp] theorem State.skipIf_draws (s : State) (c : Bool) : (s.skipIf c).draws = s.draws := by cases c <;> rfl
@[simp] theorem State.skipIf_params (s : State) (c : Bool) : (s.skipIf c).params = s.params := by cases c <;> rfl

/-! ### `State.tick` -/

@[simp] theorem State.tick_mem (s : State) : s.tick.mem = s.mem := rfl
@[simp] theorem State.tick_regs (s : State) : s.tick.regs = s.regs := rfl
@[simp] theorem State.tick_idx (s : State) : s.tick.idx = s.idx := rfl
@[simp] theorem State.tick_pc (s : State) : s.tick.pc = s.pc := rfl
@[simp] theorem State.tick_stack (s : State) : s.tick.stack = s.stack := rfl
@[simp] theorem State.tick_dt (s : State) : s.tick.dt = if s.dt.toNat > 0 then s.dt - 1 else s.dt := rfl
@[simp] theorem State.tick_st (s : State) : s.tick.st = if s.st.toNat > 0 then s.st - 1 else s.st := rfl
@[simp] theorem State.tick_soundActive (s : State) : s.tick.soundActive = decide (s.st.toNat > 0) := rfl
@[simp] theorem State.tick_fb (s : State) : s.tick.fb = s.fb := rfl
@[simp] theorem State.tick_keys (s : State) : s.tick.keys = s.keys := rfl
@[simp] theorem State.tick_run (s : State) : s.tick.run = s.run := rfl
@[simp] theorem State.tick_draws (s : State) : s.tick.draws = s.draws := rfl
@[simp] theorem State.tick_params (s : State) : s.tick.params = s.params := rfl

/-! ### `State.drawRows` -/

@[simp] theorem State.drawRows_mem (s : State) (x y : Reg) (rows : List Byte) :
    (s.drawRows x y rows).mem = s.mem := rfl
@[simp] theorem State.drawRows_idx (s : State) (x y : Reg) (rows : List Byte) :
    (s.drawRows x y rows).idx = s.idx := rfl
@[simp] theorem State.drawRows_pc (s : State) (x y : Reg) (rows : List Byte) :
    (s.drawRows x y rows).pc = s.pc := rfl
@[simp] theorem State.drawRows_stack (s : State) (x y : Reg) (rows : List Byte) :
    (s.drawRows x y rows).stack = s.stack := rfl
@[simp] theorem State.drawRows_dt (s : State) (x y : Reg) (rows : List Byte) :
    (s.drawRows x y rows).dt = s.dt := rfl
@[simp] theorem State.drawRows_st (s : State) (x y : Reg) (rows : List Byte) :
    (s.drawRows x y rows).st = s.st := rfl
@[simp] theorem State.drawRows_soundActive (s : State) (x y : Reg) (rows : List Byte) :
    (s.drawRows x y rows).soundActive = s.soundActive := rfl
@[simp] theorem State.drawRows_keys (s : State) (x y : Reg) (rows : List Byte) :
    (s.drawRows x y rows).keys = s.keys := rfl
@[simp] theorem State.drawRows_run (s : State) (x y : Reg) (rows : List Byte) :
    (s.drawRows x y rows).run = s.run := rfl
@[simp] theorem State.drawRows_draws (s : State) (x y : Reg) (rows : List Byte) :
    (s.drawRows x y rows).draws = s.draws := rfl
@[simp] theorem State.drawRows_params (s : State) (x y : Reg) (rows : List Byte) :
    (s.drawRows x y rows).params = s.params := rfl
@[simp] theorem State.drawRows_fb (s : State) (x y : Reg) (rows : List Byte) :
    (s.drawRows x y rows).fb = (s.fb.draw (spriteCells (s.reg x) (s.reg y) 0 rows)).1 := rfl

/-! ### General registers -/

theorem State.reg_eq (s : State) (r : Reg) : s.reg r = s.regs[r.val] := rfl

@[simp] theorem State.reg_setReg_self (s : State) (r : Reg) (v : Byte) : (s.setReg r v).reg r = v := by
  simp [State.reg_eq]

theorem State.reg_setReg_of_ne (s : State) {r q : Reg} (v : Byte) (h : q ≠ r) :
    (s.setReg r v).reg q = s.reg q := by
  have hv : r.val ≠ q.val := fun e => h (Fin.ext e.symm)
  simp [State.reg_eq, hv]

theorem State.reg_setReg (s : State) (r q : Reg) (v : Byte) :
    (s.setReg r v).reg q = if q = r then v else s.reg q := by
  by_cases h : q = r
  · subst h; simp
  · simp [h, State.reg_setReg_of_ne]

theorem State.reg_setRegs (s : State) (bs : List Byte) (q : Reg) :
    (s.setRegs bs).reg q = bs.getD q.val (s.reg q) := by
  simp [State.reg_eq]

/-- Two states with the same register file read alike. -/
theorem State.reg_congr {s t : State} (h : t.regs = s.regs) (r : Reg) : t.reg r = s.reg r := by
  simp [State.reg_eq, h]

/-! ### Keyboard latch -/

theorem State.key_eq (s : State) (k : Key) : s.key k = s.keys[k.val] := rfl

theorem State.key_setKey (s : State) (k q : Key) (b : Bool) :
    (s.setKey k b).key q = if q = k then b else s.key q := by
  by_cases h : q = k
  · subst h; simp [State.key_eq]
  · have hv : k.val ≠ q.val := fun e => h (Fin.ext e.symm)
    simp [State.key_eq, h, hv]

/-! ### Framebuffer -/

@[simp] theorem Grid.cell_clear (c : Col) (r : Row) : Grid.clear.cell c r = false := by
  simp [Grid.clear, Grid.cell]

theorem Grid.cell_toggle (g : Grid) (c q : Col) (r p : Row) :
    (g.toggle c r).cell q p = if q = c ∧ p = r then !g.cell c r else g.cell q p := by
  unfold Grid.toggle Grid.cell
  by_cases hc : q = c
  · subst hc
    by_cases hr : p = r
    · subst hr; simp
    · have hv : r.val ≠ p.val := fun e => hr (Fin.ext e.symm)
      simp [hr, hv]
  · have hv : c.val ≠ q.val := fun e => hc (Fin.ext e.symm)
    simp [hc, hv]

/-- Framebuffers that agree on every cell are equal. -/
theorem Grid.ext_cell {g h : Grid} (e : ∀ c r, g.cell c r = h.cell c r) : g = h := by
  apply Vector.ext
  intro c hc
  apply Vector.ext
  intro r hr
  exact e ⟨c, hc⟩ ⟨r, hr⟩

/-! ### The constructed state (R28) -/

@[simp] theorem State.construct_mem (p : Params) : (State.construct p).mem = Memory.constructed p.font := rfl
@[simp] theorem State.construct_regs (p : Params) : (State.construct p).regs = Vector.replicate 16 0 := rfl
@[simp] theorem State.construct_idx (p : Params) : (State.construct p).idx = 0 := rfl
@[simp] theorem State.construct_pc (p : Params) : (State.construct p).pc = 0x200 := rfl
@[simp] theorem State.construct_stack (p : Params) : (State.construct p).stack = [] := rfl
@[simp] theorem State.construct_dt (p : Params) : (State.construct p).dt = 0 := rfl
@[simp] theorem State.construct_st (p : Params) : (State.construct p).st = 0 := rfl
@[simp] theorem State.construct_soundActive (p : Params) : (State.construct p).soundActive = false := rfl
@[simp] theorem State.construct_fb (p : Params) : (State.construct p).fb = Grid.clear := rfl
@[simp] theorem State.construct_keys (p : Params) : (State.construct p).keys = Vector.replicate 16 false := rfl
@[simp] theorem State.construct_run (p : Params) : (State.construct p).run = .running := rfl
@[simp] theorem State.construct_draws (p : Params) : (State.construct p).draws = 0 := rfl
@[simp] theorem State.construct_params (p : Params) : (State.construct p).params = p := rfl

theorem State.reset_eq : State.reset = State.construct Params.atReset := rfl

/-- Nothing is listed at reset: memory reads as construction left it. -/
theorem State.reset_mem : State.reset.mem = [] := by decide

end Sys2Proof.Machine
end

