-- ==== Sys2Proof/Laws/Ops.lean ====
section
/-! SUPPORT. One lemma per shared operation that says once everything it can do: stores and loads
(R36, R111), the write of a result and its flag (R78), pops (R66), and a draw (R120..R123, R125). -/

namespace Sys2Proof.Machine

/-! ### Fetch, store, load -/

theorem State.fetch_eq (s : State) :
    s.fetch = if s.pc.toNat ≤ 0xFFE then .ok (s.mem.readWord s.pc.toNat)
      else .error (max s.pc.toNat memorySize) := Memory.checkedReadWord_eq _ _

theorem State.store_eq (i : Instr) (a : Nat) (bs : List Byte) (s : State) :
    s.store i a bs =
      if bs.length = 0 ∨ a + bs.length ≤ memorySize then { s with mem := s.mem.writeBytes a bs }
      else s.raise (s.execFault .outOfRangeAddress i (some (max a memorySize))) := by
  unfold State.store
  rw [Memory.checkedWrite_eq]
  by_cases h : bs.length = 0 ∨ a + bs.length ≤ memorySize
  · rw [if_pos h, if_pos h]
  · rw [if_neg h, if_neg h]

theorem State.load_eq (i : Instr) (a n : Nat) (use : List Byte → State) (s : State) :
    s.load i a n use =
      if n = 0 ∨ a + n ≤ memorySize then use (s.mem.readBytes a n)
      else s.raise (s.execFault .outOfRangeAddress i (some (max a memorySize))) := by
  unfold State.load
  rw [Memory.checkedRead_eq]
  by_cases h : n = 0 ∨ a + n ≤ memorySize
  · rw [if_pos h, if_pos h]
  · rw [if_neg h, if_neg h]

@[simp] theorem State.length_firstRegs (s : State) (k : Nat) : (s.firstRegs k).length = min k 16 := by
  simp [State.firstRegs]

theorem State.getD_firstRegs (s : State) (k : Nat) (r : Reg) (d : Byte) :
    (s.firstRegs k).getD r.val d = if r.val < k then s.reg r else d := by
  by_cases h : r.val < k
  · simp [State.firstRegs, h, State.reg_eq]
  · simp [State.firstRegs, h]

theorem blockCount_le (p : Params) (x : Reg) : blockCount p x ≤ 16 := by
  have := x.isLt
  unfold blockCount
  split <;> omega

@[simp] theorem length_bcdDigits (v : Byte) : (bcdDigits v).length = 3 := rfl

/-! ### The write of a result and its flag (R78) -/

theorem State.reg_writeWithFlag (s : State) (x q : Reg) (res : Byte) (flag : Bool) :
    (s.writeWithFlag x res flag).reg q =
      if q = regF then
        (if x = regF ∧ s.params.vfOrder = .resultLast then res else flagByte flag)
      else if q = x then res else s.reg q := by
  unfold State.writeWithFlag
  cases hv : s.params.vfOrder <;> simp only [State.reg_setReg]
  · by_cases hq : q = regF <;> simp [hq]
  · by_cases hq : q = regF
    · subst hq
      by_cases hx : regF = x
      · simp [hx]
      · simp [hx, Ne.symm hx]
    · simp [hq]

/-- Only the register file changes. -/
theorem State.writeWithFlag_frame (s : State) (x : Reg) (res : Byte) (flag : Bool) :
    s.writeWithFlag x res flag = { s with regs := (s.writeWithFlag x res flag).regs } := by
  unfold State.writeWithFlag
  cases s.params.vfOrder <;> rfl

/-! ### Arithmetic as numbers (R77) -/

theorem sumByte_toNat (a b : Byte) : (sumByte a b).toNat = (a.toNat + b.toNat) % 256 := by
  simp [sumByte, wideSum]

theorem differenceByte_toNat (a b : Byte) :
    (differenceByte a b).toNat = (a.toNat + 256 - b.toNat) % 256 := by
  have := a.isLt; have := b.isLt
  simp [differenceByte, BitVec.toNat_sub]
  omega

theorem shiftedRight_toNat (v : Byte) : (shiftedRight v).toNat = v.toNat / 2 := by
  simp [shiftedRight, Nat.shiftRight_eq_div_pow]

theorem shiftRightFlag_eq (v : Byte) : shiftRightFlag v = decide (v.toNat % 2 = 1) := by
  simp [shiftRightFlag, BitVec.getLsbD, Nat.testBit_zero]

theorem shiftedLeft_toNat (v : Byte) : (shiftedLeft v).toNat = v.toNat * 2 % 256 := by
  simp [shiftedLeft, wideDouble]

theorem zextAddr_toNat (a : Addr) : (zextAddr a).toNat = a.toNat := by
  have := a.isLt
  simp [zextAddr]
  omega

theorem zextByte_toNat (v : Byte) : (zextByte v).toNat = v.toNat := by
  have := v.isLt
  simp [zextByte]
  omega

theorem glyphAddress_toNat (v : Byte) : (glyphAddress v).toNat = 5 * v.toNat := by
  have := v.isLt
  simp [glyphAddress]
  omega

/-! ### A draw (R120..R123, R125) -/

theorem Grid.drawFrom_cell (ps : List (Col × Row)) (hp : ps.Nodup) (g : Grid) (b : Bool) (c : Col) (r : Row) :
    (ps.foldl Grid.drawPixel (g, b)).1.cell c r = (g.cell c r ^^ decide ((c, r) ∈ ps)) := by
  induction ps generalizing g b with
  | nil => simp
  | cons p ps ih =>
    obtain ⟨hn, hp⟩ := List.nodup_cons.1 hp
    rw [List.foldl_cons, Grid.drawPixel, ih hp, Grid.cell_toggle]
    by_cases e : c = p.1 ∧ r = p.2
    · obtain ⟨rfl, rfl⟩ := e
      have hn' : decide ((p.1, p.2) ∈ ps) = false := by simpa using hn
      simp [hn']
    · rw [if_neg e]
      have : (c, r) ≠ p := fun h => e (by rw [← h]; exact ⟨rfl, rfl⟩)
      simp [this]

theorem Grid.drawFrom_collide (ps : List (Col × Row)) (hp : ps.Nodup) (g : Grid) (b : Bool) :
    (ps.foldl Grid.drawPixel (g, b)).2 = (b || ps.any fun p => g.cell p.1 p.2) := by
  induction ps generalizing g b with
  | nil => simp
  | cons p ps ih =>
    obtain ⟨hn, hp⟩ := List.nodup_cons.1 hp
    have same : (ps.any fun q => (g.toggle p.1 p.2).cell q.1 q.2) = ps.any fun q => g.cell q.1 q.2 := by
      rw [Bool.eq_iff_iff, List.any_eq_true, List.any_eq_true]
      apply exists_congr
      intro q
      apply and_congr_right
      intro hq
      have : ¬(q.1 = p.1 ∧ q.2 = p.2) := fun e => hn ((Prod.ext e.1 e.2 : q = p) ▸ hq)
      rw [Grid.cell_toggle, if_neg this]
    rw [List.foldl_cons, Grid.drawPixel, ih hp]
    simp only [same, List.any_cons, Bool.or_assoc]

/-- After a draw of distinct cells, exactly those cells are inverted. -/
theorem Grid.draw_cell {ps : List (Col × Row)} (hp : ps.Nodup) (g : Grid) (c : Col) (r : Row) :
    (g.draw ps).1.cell c r = (g.cell c r ^^ decide ((c, r) ∈ ps)) := Grid.drawFrom_cell ps hp g false c r

/-- A draw of distinct cells collides iff one of them was on. -/
theorem Grid.draw_collide {ps : List (Col × Row)} (hp : ps.Nodup) (g : Grid) :
    (g.draw ps).2 = ps.any fun p => g.cell p.1 p.2 := by
  unfold Grid.draw
  rw [Grid.drawFrom_collide ps hp]
  rfl

theorem spriteCell_inj {x0 y0 : Byte} {c c' r r' : Nat} (hc : c < 8) (hc' : c' < 8)
    (hr : r < r' + 32) (hr' : r' < r + 32) (e : spriteCell x0 y0 c r = spriteCell x0 y0 c' r') :
    c = c' ∧ r = r' := by
  have e1 := congrArg (fun p : Col × Row => p.1.val) e
  have e2 := congrArg (fun p : Col × Row => p.2.val) e
  simp [spriteCell, Fin.ofNat] at e1 e2
  omega

theorem mem_rowCells {x0 y0 : Byte} {r : Nat} {b : Byte} {p : Col × Row} :
    p ∈ rowCells x0 y0 r b ↔ ∃ c, c < 8 ∧ spriteBit b c = true ∧ spriteCell x0 y0 c r = p := by
  simp [rowCells, and_assoc]

theorem rowCells_nodup (x0 y0 : Byte) (r : Nat) (b : Byte) : (rowCells x0 y0 r b).Nodup := by
  unfold rowCells
  refine List.Nodup.map_on ?_ (List.Nodup.filter _ List.nodup_range)
  intro c hc c' hc' e
  simp at hc hc'
  exact (spriteCell_inj hc.1 hc'.1 (by omega) (by omega) e).1

theorem mem_spriteCells {x0 y0 : Byte} {r : Nat} {bs : List Byte} {p : Col × Row} :
    p ∈ spriteCells x0 y0 r bs ↔
      ∃ j c, j < bs.length ∧ c < 8 ∧ spriteBit (bs.getD j 0) c = true ∧ spriteCell x0 y0 c (r + j) = p := by
  induction bs generalizing r with
  | nil => simp [spriteCells]
  | cons b bs ih =>
    rw [spriteCells, List.mem_append, mem_rowCells, ih]
    constructor
    · rintro (⟨c, hc, hb, e⟩ | ⟨j, c, hj, hc, hb, e⟩)
      · exact ⟨0, c, by simp, hc, by simpa using hb, by simpa using e⟩
      · exact ⟨j + 1, c, by simpa using hj, hc, by simpa using hb, by rw [← e]; congr 1; omega⟩
    · rintro ⟨j, c, hj, hc, hb, e⟩
      cases j with
      | zero => exact .inl ⟨c, hc, by simpa using hb, by simpa using e⟩
      | succ j =>
        exact .inr ⟨j, c, by simpa using hj, hc, by simpa using hb, by rw [← e]; congr 1; omega⟩

/-- No two pixels of a sprite of at most 32 rows land on one cell (R122). -/
theorem spriteCells_nodup (x0 y0 : Byte) (r : Nat) (bs : List Byte) (h : bs.length ≤ 32) :
    (spriteCells x0 y0 r bs).Nodup := by
  induction bs generalizing r with
  | nil => exact List.nodup_nil
  | cons b bs ih =>
    simp only [List.length_cons] at h
    rw [spriteCells, List.nodup_append]
    refine ⟨rowCells_nodup x0 y0 r b, ih (r + 1) (by omega), ?_⟩
    intro p hp q hq e
    subst e
    obtain ⟨c, hc, -, e⟩ := mem_rowCells.1 hp
    obtain ⟨j, c', hj, hc', -, e'⟩ := mem_spriteCells.1 hq
    have := (spriteCell_inj hc hc' (by omega) (by omega) (e.trans e'.symm)).2
    omega

end Sys2Proof.Machine
end

