-- ==== Sys2Proof/Laws/Frame.lean ====
section
/-! SUPPORT. What each shared operation leaves unchanged, said once: the frame lemmas the statements'
proofs cite instead of unfolding the operations. -/

namespace Sys2Proof.Machine

theorem changesOnly_refl (s : State) (touched : Part → Prop) : changesOnly s s touched := by
  intro p _
  cases p <;> rfl

theorem changesOnly_weaken {s t : State} {a b : Part → Prop} (h : changesOnly s t a) (hab : ∀ p, a p → b p) :
    changesOnly s t b := fun p hp => h p fun ha => hp (hab p ha)

theorem changesOnly_setReg (s : State) (x : Reg) (v : Byte) :
    changesOnly s (s.setReg x v) fun p => p = .reg x := by
  intro p hp
  cases p with
  | reg r => exact State.reg_setReg_of_ne s v fun e => hp (by rw [e])
  | _ => rfl

theorem changesOnly_setPc (s : State) (a : Word) : changesOnly s (s.setPc a) fun p => p = .pc := by
  intro p hp
  cases p with
  | pc => exact absurd rfl hp
  | _ => rfl

theorem changesOnly_skipIf (s : State) (c : Bool) : changesOnly s (s.skipIf c) fun p => p = .pc := by
  cases c
  · exact changesOnly_refl s _
  · exact changesOnly_setPc s _

theorem changesOnly_writeWithFlag (s : State) (x : Reg) (res : Byte) (flag : Bool) :
    changesOnly s (s.writeWithFlag x res flag) fun p => p = .reg x ∨ p = .reg regF := by
  rw [State.writeWithFlag_frame]
  intro p hp
  cases p with
  | reg r =>
    have h1 : r ≠ x := fun e => hp (.inl (by rw [e]))
    have h2 : r ≠ regF := fun e => hp (.inr (by rw [e]))
    have := State.reg_writeWithFlag s x r res flag
    rw [if_neg h2, if_neg h1] at this
    exact this
  | _ => rfl

theorem changesOnly_raise (s : State) (f : FaultRecord) : changesOnly s (s.raise f) fun p => p = .run := by
  intro p hp
  cases p with
  | run => exact absurd rfl hp
  | _ => rfl

/-- A run of bytes written: only those bytes change. -/
theorem changesOnly_writeBytes {s : State} {a : Nat} {bs : List Byte} (h : s.mem.wf = true)
    (ha : a + bs.length ≤ memorySize) :
    changesOnly s { s with mem := s.mem.writeBytes a bs } fun p => ∃ j, j < bs.length ∧ p = .byte (a + j) := by
  intro p hp
  cases p with
  | byte b =>
    have := Memory.readByte_writeBytes (b := b) h ha
    rw [if_neg] at this
    · exact this
    · rintro ⟨h1, h2⟩
      exact hp ⟨b - a, by omega, by congr 1; omega⟩
  | _ => rfl

/-- Registers loaded from a list: only those below its length change. -/
theorem changesOnly_setRegs (s : State) (bs : List Byte) :
    changesOnly s (s.setRegs bs) fun p => ∃ r : Reg, r.val < bs.length ∧ p = .reg r := by
  intro p hp
  cases p with
  | reg r =>
    have hr : bs.length ≤ r.val := by
      by_contra h
      exact hp ⟨r, by omega, rfl⟩
    show (s.setRegs bs).reg r = s.reg r
    rw [State.reg_setRegs]
    simp [List.getD, List.getElem?_eq_none hr]
  | byte a => simp [Part.same]
  | key k => simp [Part.same, State.key]
  | cell c r => simp [Part.same, State.cell]
  | _ => simp [Part.same]

/-- A draw: only cells and VF change. -/
theorem changesOnly_drawRows (s : State) (x y : Reg) (rows : List Byte) :
    changesOnly s (s.drawRows x y rows) fun p => p = .reg regF ∨ ∃ c r, p = .cell c r := by
  intro p hp
  cases p with
  | reg r => exact State.reg_setReg_of_ne _ _ fun e => hp (.inl (by rw [e]))
  | cell c r => exact absurd (.inr ⟨c, r, rfl⟩) hp
  | byte a => simp [Part.same]
  | key k => simp [Part.same, State.key]
  | _ => simp [Part.same]

theorem State.drawRows_cell (s : State) (x y : Reg) {rows : List Byte} (h : rows.length ≤ 32) (c : Col) (r : Row) :
    (s.drawRows x y rows).cell c r =
      (s.cell c r ^^ decide ((c, r) ∈ spriteCells (s.reg x) (s.reg y) 0 rows)) :=
  Grid.draw_cell (spriteCells_nodup _ _ _ _ h) s.fb c r

theorem State.drawRows_flag (s : State) (x y : Reg) {rows : List Byte} (h : rows.length ≤ 32) :
    (s.drawRows x y rows).reg regF =
      flagByte ((spriteCells (s.reg x) (s.reg y) 0 rows).any fun p => s.cell p.1 p.2) := by
  unfold State.drawRows
  simp only [State.reg_setReg_self, Grid.draw_collide (spriteCells_nodup _ _ _ _ h)]
  rfl

/-- A cell is among a sprite's lit cells iff it lies under the sprite memory holds at I. -/
theorem mem_spriteCells_iff_underSprite (s : State) (x y : Reg) (n : Nat) (c : Col) (r : Row) :
    (c, r) ∈ spriteCells (s.reg x) (s.reg y) 0 (s.mem.readBytes s.idx.toNat n) ↔ s.underSprite x y n c r := by
  rw [mem_spriteCells]
  unfold State.underSprite
  constructor
  · rintro ⟨j, i, hj, hi, hb, e⟩
    rw [Memory.length_readBytes] at hj
    rw [Memory.getD_readBytes, if_pos hj] at hb
    have e1 := congrArg (fun p : Col × Row => p.1.val) e
    have e2 := congrArg (fun p : Col × Row => p.2.val) e
    simp [spriteCell, Fin.ofNat] at e1 e2
    exact ⟨j, i, hj, hi, hb, e1.symm, e2.symm⟩
  · rintro ⟨j, i, hj, hi, hb, e1, e2⟩
    refine ⟨j, i, by rwa [Memory.length_readBytes], hi, ?_, ?_⟩
    · rw [Memory.getD_readBytes, if_pos hj]; exact hb
    · refine Prod.ext (Fin.ext ?_) (Fin.ext ?_)
      · simp [spriteCell, Fin.ofNat, e1]
      · simp [spriteCell, Fin.ofNat, e2]

end Sys2Proof.Machine
end

