-- ==== Sys2Proof/Laws/Exec.lean ====
section
/-! SUPPORT. What `exec` and `step` can answer: always a next state, and for each run state and each
fetched word which one. Later proofs cite these instead of unfolding `step`. -/

namespace Sys2Proof.Machine

/-- Every instruction answers a next state, in every state. -/
theorem exec_next (i : Instr) (s : State) : ∃ t, exec i s = .next t := by
  cases i <;> exact ⟨_, rfl⟩

theorem step_of_faulted {s : State} {f : FaultRecord} (h : s.run = .faulted f) : step s = .next s := by
  unfold step; rw [h]

theorem step_of_awaiting {s : State} {d : Reg} (h : s.run = .awaitingKey d) : step s = .next s := by
  unfold step; rw [h]

theorem step_of_fetch_fault {s : State} (h : s.run = .running) (hp : 0xFFF ≤ s.pc.toNat) :
    step s = .next (s.raise (s.fetchFault (max s.pc.toNat memorySize))) := by
  unfold step
  rw [h, State.fetch_eq, if_neg (by omega)]

theorem step_of_instr {s : State} {i : Instr} (h : s.run = .running) (hp : s.pc.toNat ≤ 0xFFE)
    (hd : decode (s.mem.readWord s.pc.toNat) = .instr i) : step s = exec i s.advance := by
  unfold step
  rw [h, State.fetch_eq, if_pos hp]
  simp only [hd]

theorem step_of_unknown {s : State} {u : Word} (h : s.run = .running) (hp : s.pc.toNat ≤ 0xFFE)
    (hd : decode (s.mem.readWord s.pc.toNat) = .unknown u) : step s = .next s.advance := by
  unfold step
  rw [h, State.fetch_eq, if_pos hp]
  simp only [hd, execUnknown]

/-- Everything a step can do. -/
theorem step_cases (s : State) :
    (s.run ≠ .running ∧ step s = .next s) ∨
    (s.run = .running ∧ 0xFFF ≤ s.pc.toNat ∧
      step s = .next (s.raise (s.fetchFault (max s.pc.toNat memorySize)))) ∨
    (s.run = .running ∧ s.pc.toNat ≤ 0xFFE ∧
      decode (s.mem.readWord s.pc.toNat) = .unknown (s.mem.readWord s.pc.toNat) ∧
      step s = .next s.advance) ∨
    (∃ i, s.fetches i ∧ step s = exec i s.advance) := by
  cases h : s.run with
  | faulted f => exact .inl ⟨by simp, step_of_faulted h⟩
  | awaitingKey d => exact .inl ⟨by simp, step_of_awaiting h⟩
  | running =>
    by_cases hp : s.pc.toNat ≤ 0xFFE
    · cases hd : decode (s.mem.readWord s.pc.toNat) with
      | instr i => exact .inr (.inr (.inr ⟨i, ⟨h, hp, hd⟩, step_of_instr h hp hd⟩))
      | unknown u =>
        refine .inr (.inr (.inl ⟨rfl, hp, ?_, step_of_unknown h hp hd⟩))
        rw [decode_unknown_self hd]
    · exact .inr (.inl ⟨rfl, by omega, step_of_fetch_fault h (by omega)⟩)

theorem step_next (s : State) : ∃ t, step s = .next t := by
  rcases step_cases s with ⟨-, h⟩ | ⟨-, -, h⟩ | ⟨-, -, -, h⟩ | ⟨i, -, h⟩
  · exact ⟨_, h⟩
  · exact ⟨_, h⟩
  · exact ⟨_, h⟩
  · obtain ⟨t, ht⟩ := exec_next i s.advance
    exact ⟨t, h.trans ht⟩

/-- Every host call answers a next state and a reply. -/
theorem hostCall_next (c : HostCall) (s : State) : ∃ t r, hostCall c s = .next (t, r) := by
  cases c with
  | step =>
    obtain ⟨t, h⟩ := step_next s
    exact ⟨t, .stepped (stepResult s t), by simp only [hostCall, h]⟩
  | _ => exact ⟨_, _, rfl⟩

theorem hostCall_step {s t : State} (h : step s = .next t) :
    hostCall .step s = .next (t, .stepped (stepResult s t)) := by
  simp only [hostCall, h]

/-- The instruction word at pc, from its two bytes (R33). -/
theorem readWord_toNat (m : Memory) (a : Nat) :
    (m.readWord a).toNat = 0x100 * (m.readByte a).toNat + (m.readByte (a + 1)).toNat :=
  wordOfBytes_toNat _ _

theorem runCalls_cons {c : HostCall} {cs : List HostCall} {s t : State} {r : Reply}
    (h : hostCall c s = .next (t, r)) : runCalls (c :: cs) s = runCalls cs t := by
  simp only [runCalls, h]

theorem runCalls_append {cs ds : List HostCall} {s t : State} (h : runCalls cs s = .next t) :
    runCalls (cs ++ ds) s = runCalls ds t := by
  induction cs generalizing s with
  | nil => cases h; rfl
  | cons c cs ih =>
    obtain ⟨u, r, hc⟩ := hostCall_next c s
    rw [runCalls_cons hc] at h
    rw [List.cons_append, runCalls_cons hc, ih h]

theorem CallSequence.runTo_zero (h : CallSequence) (s : State) : h.runTo 0 s = .next s := rfl

/-- One call more. -/
theorem CallSequence.runTo_succ {h : CallSequence} {n : Nat} {s t u : State} {r : Reply}
    (ht : h.runTo n s = .next t) (hu : hostCall (h n) t = .next (u, r)) : h.runTo (n + 1) s = .next u := by
  unfold CallSequence.runTo at ht ⊢
  rw [List.range_succ, List.map_append, runCalls_append ht]
  exact runCalls_cons hu

/-- A host's run never stops: every call of it answers a next state. -/
theorem CallSequence.runTo_next (h : CallSequence) (n : Nat) (s : State) : ∃ t, h.runTo n s = .next t := by
  induction n with
  | zero => exact ⟨s, rfl⟩
  | succ n ih =>
    obtain ⟨t, ht⟩ := ih
    obtain ⟨u, r, hu⟩ := hostCall_next (h n) t
    exact ⟨u, CallSequence.runTo_succ ht hu⟩

theorem tickReports_tick (cs : List HostCall) (s : State) :
    tickReports (.tick :: cs) s = decide (0 < s.st.toNat) :: tickReports cs s.tick := rfl

/-- A call that is no tick adds no report. -/
theorem tickReports_cons {c : HostCall} {cs : List HostCall} {s t : State} {r : Reply}
    (h : hostCall c s = .next (t, r)) (hc : c ≠ .tick) : tickReports (c :: cs) s = tickReports cs t := by
  cases c with
  | tick => exact absurd rfl hc
  | step =>
    obtain ⟨u, hu⟩ := step_next s
    have e := hostCall_step hu
    rw [e] at h
    injection h with h
    injection h with h _
    simp only [tickReports, e, h]
  | loadProgram bs =>
    injection h with h
    simp only [tickReports, hostCall, h]
    cases r with
    | ticked b => exact absurd (congrArg Prod.snd h) (by unfold State.hostLoad; split <;> simp)
    | _ => rfl
  | loadBytes a bs =>
    injection h with h
    simp only [tickReports, hostCall, h]
    cases r with
    | ticked b => exact absurd (congrArg Prod.snd h) (by unfold State.hostLoad; split <;> simp)
    | _ => rfl
  | _ => injection h with h; injection h with h _; subst h; rfl

/-- The call that follows in an undisturbed run, and the run after it. -/
theorem soundUndisturbed_cons {c : HostCall} {cs : List HostCall} {s t : State} {r : Reply}
    (h : hostCall c s = .next (t, r)) (hu : soundUndisturbed (c :: cs) s) :
    c ≠ .construct ∧ (c = .step → ∀ x, ¬s.fetches (.ldST x)) ∧ soundUndisturbed cs t :=
  ⟨hu.1, hu.2.1, hu.2.2 t r h⟩

end Sys2Proof.Machine
end

