-- ==== Sys2Proof/Laws/PerInstr.lean ====
section
/-! SUPPORT. Statements about every instruction as syntax, one lemma per constructor. Family
`RoundTrip`: decoding the word of a well-formed instruction gives the instruction (R50, R51). -/

namespace Sys2Proof.Laws

/-- Decode and encode agree on `i`. -/
def RoundTrip.Statement (i : Instr) : Prop := i.wf = true → decode (encode i) = .instr i

theorem RoundTrip.sys (nnn : Addr) : RoundTrip.Statement (.sys nnn) := by
  intro h
  have hop : fieldNNN (encode (.sys nnn)) = nnn := fieldNNN_layoutA 0x0 nnn
  have hT : fieldT (encode (.sys nnn)) = 0x0#4 := fieldT_layoutA 0x0 nnn
  simp [Instr.wf] at h
  have n0 : encode (.sys nnn) ≠ 0x00E0#16 := fun e => h.1 (by rw [← hop, e]; rfl)
  have nE : encode (.sys nnn) ≠ 0x00EE#16 := fun e => h.2 (by rw [← hop, e]; rfl)
  rw [decode_family hT]
  simp [decode0, n0, nE, hop]

theorem RoundTrip.cls : RoundTrip.Statement .cls := fun _ => by decide

theorem RoundTrip.ret : RoundTrip.Statement .ret := fun _ => by decide

theorem RoundTrip.jp (nnn : Addr) : RoundTrip.Statement (.jp nnn) := by
  intro _
  rw [decode_family (t := 0x1#4) (by simp [encode])]
  simp [encode]

theorem RoundTrip.call (nnn : Addr) : RoundTrip.Statement (.call nnn) := by
  intro _
  rw [decode_family (t := 0x2#4) (by simp [encode])]
  simp [encode]

theorem RoundTrip.seImm (x : Reg) (kk : Byte) : RoundTrip.Statement (.seImm x kk) := by
  intro _
  rw [decode_family (t := 0x3#4) (by simp [encode])]
  simp [encode]

theorem RoundTrip.sneImm (x : Reg) (kk : Byte) : RoundTrip.Statement (.sneImm x kk) := by
  intro _
  rw [decode_family (t := 0x4#4) (by simp [encode])]
  simp [encode]

theorem RoundTrip.seReg (x y : Reg) : RoundTrip.Statement (.seReg x y) := by
  intro _
  rw [decode_family (t := 0x5#4) (by simp [encode])]
  simp [encode, decode5]

theorem RoundTrip.ldImm (x : Reg) (kk : Byte) : RoundTrip.Statement (.ldImm x kk) := by
  intro _
  rw [decode_family (t := 0x6#4) (by simp [encode])]
  simp [encode]

theorem RoundTrip.addImm (x : Reg) (kk : Byte) : RoundTrip.Statement (.addImm x kk) := by
  intro _
  rw [decode_family (t := 0x7#4) (by simp [encode])]
  simp [encode]

theorem RoundTrip.ldReg (x y : Reg) : RoundTrip.Statement (.ldReg x y) := by
  intro _
  rw [decode_family (t := 0x8#4) (by simp [encode])]
  simp [encode, decode8]

theorem RoundTrip.orReg (x y : Reg) : RoundTrip.Statement (.orReg x y) := by
  intro _
  rw [decode_family (t := 0x8#4) (by simp [encode])]
  simp [encode, decode8]

theorem RoundTrip.andReg (x y : Reg) : RoundTrip.Statement (.andReg x y) := by
  intro _
  rw [decode_family (t := 0x8#4) (by simp [encode])]
  simp [encode, decode8]

theorem RoundTrip.xorReg (x y : Reg) : RoundTrip.Statement (.xorReg x y) := by
  intro _
  rw [decode_family (t := 0x8#4) (by simp [encode])]
  simp [encode, decode8]

theorem RoundTrip.addReg (x y : Reg) : RoundTrip.Statement (.addReg x y) := by
  intro _
  rw [decode_family (t := 0x8#4) (by simp [encode])]
  simp [encode, decode8]

theorem RoundTrip.subReg (x y : Reg) : RoundTrip.Statement (.subReg x y) := by
  intro _
  rw [decode_family (t := 0x8#4) (by simp [encode])]
  simp [encode, decode8]

theorem RoundTrip.shr (x y : Reg) : RoundTrip.Statement (.shr x y) := by
  intro _
  rw [decode_family (t := 0x8#4) (by simp [encode])]
  simp [encode, decode8]

theorem RoundTrip.subn (x y : Reg) : RoundTrip.Statement (.subn x y) := by
  intro _
  rw [decode_family (t := 0x8#4) (by simp [encode])]
  simp [encode, decode8]

theorem RoundTrip.shl (x y : Reg) : RoundTrip.Statement (.shl x y) := by
  intro _
  rw [decode_family (t := 0x8#4) (by simp [encode])]
  simp [encode, decode8]

theorem RoundTrip.sneReg (x y : Reg) : RoundTrip.Statement (.sneReg x y) := by
  intro _
  rw [decode_family (t := 0x9#4) (by simp [encode])]
  simp [encode, decode9]

theorem RoundTrip.ldI (nnn : Addr) : RoundTrip.Statement (.ldI nnn) := by
  intro _
  rw [decode_family (t := 0xA#4) (by simp [encode])]
  simp [encode]

theorem RoundTrip.jpV0 (nnn : Addr) : RoundTrip.Statement (.jpV0 nnn) := by
  intro _
  rw [decode_family (t := 0xB#4) (by simp [encode])]
  simp [encode]

theorem RoundTrip.rnd (x : Reg) (kk : Byte) : RoundTrip.Statement (.rnd x kk) := by
  intro _
  rw [decode_family (t := 0xC#4) (by simp [encode])]
  simp [encode]

theorem RoundTrip.drw (x y : Reg) (n : Nibble) : RoundTrip.Statement (.drw x y n) := by
  intro _
  rw [decode_family (t := 0xD#4) (by simp [encode])]
  simp [encode]

theorem RoundTrip.skp (x : Reg) : RoundTrip.Statement (.skp x) := by
  intro _
  rw [decode_family (t := 0xE#4) (by simp [encode])]
  simp [encode, decodeE]

theorem RoundTrip.sknp (x : Reg) : RoundTrip.Statement (.sknp x) := by
  intro _
  rw [decode_family (t := 0xE#4) (by simp [encode])]
  simp [encode, decodeE]

theorem RoundTrip.ldVxDT (x : Reg) : RoundTrip.Statement (.ldVxDT x) := by
  intro _
  rw [decode_family (t := 0xF#4) (by simp [encode])]
  simp [encode, decodeF]

theorem RoundTrip.ldVxK (x : Reg) : RoundTrip.Statement (.ldVxK x) := by
  intro _
  rw [decode_family (t := 0xF#4) (by simp [encode])]
  simp [encode, decodeF]

theorem RoundTrip.ldDT (x : Reg) : RoundTrip.Statement (.ldDT x) := by
  intro _
  rw [decode_family (t := 0xF#4) (by simp [encode])]
  simp [encode, decodeF]

theorem RoundTrip.ldST (x : Reg) : RoundTrip.Statement (.ldST x) := by
  intro _
  rw [decode_family (t := 0xF#4) (by simp [encode])]
  simp [encode, decodeF]

theorem RoundTrip.addI (x : Reg) : RoundTrip.Statement (.addI x) := by
  intro _
  rw [decode_family (t := 0xF#4) (by simp [encode])]
  simp [encode, decodeF]

theorem RoundTrip.ldF (x : Reg) : RoundTrip.Statement (.ldF x) := by
  intro _
  rw [decode_family (t := 0xF#4) (by simp [encode])]
  simp [encode, decodeF]

theorem RoundTrip.ldB (x : Reg) : RoundTrip.Statement (.ldB x) := by
  intro _
  rw [decode_family (t := 0xF#4) (by simp [encode])]
  simp [encode, decodeF]

theorem RoundTrip.ldStore (x : Reg) : RoundTrip.Statement (.ldStore x) := by
  intro _
  rw [decode_family (t := 0xF#4) (by simp [encode])]
  simp [encode, decodeF]

theorem RoundTrip.ldLoad (x : Reg) : RoundTrip.Statement (.ldLoad x) := by
  intro _
  rw [decode_family (t := 0xF#4) (by simp [encode])]
  simp [encode, decodeF]

end Sys2Proof.Laws
end

