-- ==== Sys2Proof/Laws/Run.lean ====
section
/-! SUPPORT. Runs of the machine behind the host's interface: how `Host.Core.run` takes one step. -/

namespace Sys2Proof.Machine

theorem run_cons (M : Host.Core) {k : Nat} {s t : M.State} (h : M.step s = .next t) :
    Host.Core.run M (k + 1) s = Host.Core.run M k t := by
  simp only [Host.Core.run, h]

/-- A run begins with a step. -/
theorem core_run_cons {k : Nat} {s t : State} (h : step s = .next t) :
    Host.Core.run core (k + 1) s = Host.Core.run core k t := run_cons core h

/-- A run ends with a step. -/
theorem core_run_snoc {k : Nat} {s t : State} (h : Host.Core.run core k s = .next t) :
    Host.Core.run core (k + 1) s = step t := by
  induction k generalizing s with
  | zero =>
    injection h with h
    obtain ⟨u, hu⟩ := step_next s
    rw [core_run_cons hu, ← h]
    exact hu.symm
  | succ k ih =>
    obtain ⟨u, hu⟩ := step_next s
    rw [core_run_cons hu] at h ⊢
    exact ih h

end Sys2Proof.Machine
end

