-- ==== Sys2Proof/Tests/Slice0.lean ====
section
/-! SUPPORT. Tests by evaluation on small states. Expected values are the vectors of
spec/95_test_vectors.md, named in the comments (S, V, CF, A, M, DP, K), or worked out by hand from the
rule named. At the end, for each statement with hypotheses, states and operands that meet them. -/

set_option maxRecDepth 4000

namespace Sys2Proof.Tests

open Sys2Proof Sys2Proof.Machine

/-! ### Helpers -/

def paramsInclusive : Params :=
  { stackDepth := .bounded 16, blockCopyInclusive := true, vfOrder := .flagLast, font := defaultFont }

def paramsExclusive : Params :=
  { stackDepth := .unbounded, blockCopyInclusive := false, vfOrder := .resultLast, font := defaultFont }

/-- A new engine, its memory in the form `test_constructed_memory` shows; it starts at 0x200. -/
def start : State := { State.construct paramsInclusive with mem := [] }

/-- A new engine with the other value of each parameter. -/
def startExclusive : State := { State.construct paramsExclusive with mem := [] }

theorem test_constructed_memory : (State.construct paramsInclusive).mem = [] ∧ State.reset.mem = [] := by
  decide

def nextOf (o : Host.Outcome State Fault Refusal) : Option State :=
  match o with
  | .next t => some t
  | .fault _ => none
  | .refused _ => none

theorem next_of_nextOf {o : Host.Outcome State Fault Refusal} {t : State} (h : nextOf o = some t) :
    o = .next t := by
  cases o <;> simp_all [nextOf]

/-- The state after one step at the word `w`, placed where the step fetches it. -/
def after (w : Nat) (s : State) : State := (nextOf (step (s.withFetchWord 16 w))).getD s

/-- The state after two steps, with nothing placed. -/
def afterTwo (s : State) : State := (nextOf ((nextOf (step s)).elim (.next s) step)).getD s

/-- What the host's `step()` reports at the word `w`. -/
def report (w : Nat) (s : State) : Option Reply :=
  match hostCall .step (s.withFetchWord 16 w) with
  | .next p => some p.2
  | .fault _ => none
  | .refused _ => none

def V (s : State) (r : Reg) (v : Byte) : State := s.setReg r v
def atIndex (s : State) (a : Word) : State := { s with idx := a }
def atPc (s : State) (a : Word) : State := { s with pc := a }
def bytesAt (s : State) (a : Nat) (bs : List Byte) : State := { s with mem := s.mem.writeBytes a bs }
def lit (s : State) (c : Col) (r : Row) : State := { s with fb := s.fb.toggle c r }
def depth (s : State) (n : Nat) : State := { s with stack := List.replicate n 0x202 }

/-- The columns that are on in row r, by rising number. -/
def onIn (s : State) (r : Row) : List Nat := ((List.finRange 64).filter fun c => s.cell c r).map (·.val)

/-! ### WellFormed refuses the ill-formed terms -/

theorem test_wf_sys_00E0_refused : (Instr.sys 0x0E0).wf = false := by decide
theorem test_wf_sys_00EE_refused : (Instr.sys 0x0EE).wf = false := by decide
theorem test_wf_sys_00E1_accepted : (Instr.sys 0x0E1).wf = true := by decide

/-! ### Decoding: every constructor from a word written out from R50, fields x = 1010, y = 0101 -/

theorem test_decode_families_0_to_7 :
    decode 0b0000000100100011#16 = .instr (.sys 0x123) ∧
    decode 0b0000000011100000#16 = .instr .cls ∧
    decode 0b0000000011101110#16 = .instr .ret ∧
    decode 0b0001101001011100#16 = .instr (.jp 0xA5C) ∧
    decode 0b0010101001011100#16 = .instr (.call 0xA5C) ∧
    decode 0b0011101001011100#16 = .instr (.seImm 0xA 0x5C) ∧
    decode 0b0100101001011100#16 = .instr (.sneImm 0xA 0x5C) ∧
    decode 0b0101101001010000#16 = .instr (.seReg 0xA 0x5) ∧
    decode 0b0110101001011100#16 = .instr (.ldImm 0xA 0x5C) ∧
    decode 0b0111101001011100#16 = .instr (.addImm 0xA 0x5C) := by decide

theorem test_decode_families_8_to_D :
    decode 0b1000101001010000#16 = .instr (.ldReg 0xA 0x5) ∧
    decode 0b1000101001010001#16 = .instr (.orReg 0xA 0x5) ∧
    decode 0b1000101001010010#16 = .instr (.andReg 0xA 0x5) ∧
    decode 0b1000101001010011#16 = .instr (.xorReg 0xA 0x5) ∧
    decode 0b1000101001010100#16 = .instr (.addReg 0xA 0x5) ∧
    decode 0b1000101001010101#16 = .instr (.subReg 0xA 0x5) ∧
    decode 0b1000101001010110#16 = .instr (.shr 0xA 0x5) ∧
    decode 0b1000101001010111#16 = .instr (.subn 0xA 0x5) ∧
    decode 0b1000101001011110#16 = .instr (.shl 0xA 0x5) ∧
    decode 0b1001101001010000#16 = .instr (.sneReg 0xA 0x5) ∧
    decode 0b1010101001011100#16 = .instr (.ldI 0xA5C) ∧
    decode 0b1011101001011100#16 = .instr (.jpV0 0xA5C) ∧
    decode 0b1100101001011100#16 = .instr (.rnd 0xA 0x5C) ∧
    decode 0b1101101001011100#16 = .instr (.drw 0xA 0x5 0xC) := by decide

theorem test_decode_families_E_and_F :
    decode 0b1110101010011110#16 = .instr (.skp 0xA) ∧
    decode 0b1110101010100001#16 = .instr (.sknp 0xA) ∧
    decode 0b1111101000000111#16 = .instr (.ldVxDT 0xA) ∧
    decode 0b1111101000001010#16 = .instr (.ldVxK 0xA) ∧
    decode 0b1111101000010101#16 = .instr (.ldDT 0xA) ∧
    decode 0b1111101000011000#16 = .instr (.ldST 0xA) ∧
    decode 0b1111101000011110#16 = .instr (.addI 0xA) ∧
    decode 0b1111101000101001#16 = .instr (.ldF 0xA) ∧
    decode 0b1111101000110011#16 = .instr (.ldB 0xA) ∧
    decode 0b1111101001010101#16 = .instr (.ldStore 0xA) ∧
    decode 0b1111101001100101#16 = .instr (.ldLoad 0xA) := by decide

/-- V2 to V7, and the neighbours of the Ex and Fx low bytes. -/
theorem test_decode_unknown_words :
    decode 0x5121 = .unknown 0x5121 ∧ decode 0x9121 = .unknown 0x9121 ∧
    decode 0x8128 = .unknown 0x8128 ∧ decode 0x812F = .unknown 0x812F ∧
    decode 0xE1FF = .unknown 0xE1FF ∧ decode 0xF1FF = .unknown 0xF1FF ∧
    decode 0xE19F = .unknown 0xE19F ∧ decode 0xF175 = .unknown 0xF175 := by decide

theorem test_decodeBytes_too_short : decodeBytes [0x12] = .error (.truncated [0x12]) := by decide
theorem test_decodeTableWord : decodeTableWord 16 0x8124 = some (.addReg 1 2) := by decide

/-! ### Fetch and the step cycle -/

/-- V1, V2, V8: what `step()` reports. -/
theorem test_step_reports :
    report 0x0123 start = some (.stepped (.executed 0x0123 (.sys 0x123))) ∧
    report 0x5121 start = some (.stepped (.unknown 0x5121)) ∧
    report 0x00E1 start = some (.stepped (.executed 0x00E1 (.sys 0x0E1))) := by decide

/-- V9: the last fetchable word. -/
theorem test_fetch_at_FFE : (after 0x00E0 (atPc start 0xFFE)).pc = 0x1000 := by decide

/-- V11: the second byte is out of range; V10: both are. -/
theorem test_fetch_faults :
    nextOf (step (atPc start 0xFFF)) =
      some { atPc start 0xFFF with run := .faulted ⟨.outOfRangeAddress, 0xFFF, none, some 0x1000⟩ } ∧
    nextOf (step (atPc start 0x1000)) =
      some { atPc start 0x1000 with run := .faulted ⟨.outOfRangeAddress, 0x1000, none, some 0x1000⟩ } := by
  decide

/-- V13: an odd pc, and the high byte from the lower address. -/
theorem test_fetch_at_odd_pc :
    (nextOf (step (atPc (bytesAt start 0x201 [0x12, 0x00]) 0x201))).map State.pc = some 0x200 := by decide

/-! ### Control -/

/-- V1. -/
theorem test_sys : (after 0x0123 start).pc = 0x202 ∧ (after 0x0123 start).run = .running := by decide
/-- CF2. -/
theorem test_jp : (after 0x1FFF start).pc = 0xFFF := by decide
/-- CF4. -/
theorem test_call : (after 0x2300 start).pc = 0x300 ∧ (after 0x2300 start).stack = [0x202] := by decide
/-- CF5 and P6. -/
theorem test_call_overflow :
    (after 0x2300 (depth start 16)).run = .faulted ⟨.stackOverflow, 0x200, some 0x2300, none⟩ ∧
    (after 0x2300 (depth start 16)).pc = 0x202 ∧
    (after 0x2300 (depth start 16)).stack.length = 16 ∧
    (after 0x2300 (depth startExclusive 16)).stack.length = 17 := by decide
/-- CF8. -/
theorem test_ret :
    (after 0x00EE { start with stack := [0x202, 0x402] }).pc = 0x402 ∧
    (after 0x00EE { start with stack := [0x202, 0x402] }).stack = [0x202] := by decide
/-- CF7. -/
theorem test_ret_underflow :
    (after 0x00EE start).run = .faulted ⟨.stackUnderflow, 0x200, some 0x00EE, none⟩ ∧
    (after 0x00EE start).pc = 0x202 := by decide
/-- CF9, CF10. -/
theorem test_seImm : (after 0x3342 (V start 3 0x42)).pc = 0x204 ∧
    (after 0x3342 (V start 3 0x41)).pc = 0x202 := by decide
/-- CF11, CF12. -/
theorem test_sneImm : (after 0x4342 (V start 3 0x41)).pc = 0x204 ∧
    (after 0x4342 (V start 3 0x42)).pc = 0x202 := by decide
/-- CF13, CF14. -/
theorem test_seReg : (after 0x5120 (V (V start 1 0x10) 2 0x10)).pc = 0x204 ∧
    (after 0x5120 (V (V start 1 0x10) 2 0x11)).pc = 0x202 := by decide
/-- CF15, and the case not taken by R72. -/
theorem test_sneReg : (after 0x9120 (V (V start 1 0x10) 2 0x11)).pc = 0x204 ∧
    (after 0x9120 (V (V start 1 0x10) 2 0x10)).pc = 0x202 := by decide
/-- CF17: a skip past the end of memory. -/
theorem test_skip_past_the_end : (after 0x3000 (atPc start 0xFFC)).pc = 0x1000 := by decide
/-- CF18, CF19. -/
theorem test_jpV0 : (after 0xB300 (V start 0 0x10)).pc = 0x310 ∧
    (after 0xBFFF (V start 0 0xFF)).pc = 0x10FE := by decide

/-! ### ALU -/

/-- A1. -/
theorem test_ldImm : (after 0x6AFF start).reg 0xA = 0xFF := by decide
/-- A2: wraps, VF unchanged. -/
theorem test_addImm : (after 0x7101 (V (V start 1 0xFF) 0xF 0x55)).reg 1 = 0x00 ∧
    (after 0x7101 (V (V start 1 0xFF) 0xF 0x55)).reg 0xF = 0x55 := by decide
/-- A4. -/
theorem test_ldReg : (after 0x8120 (V start 2 0x3C)).reg 1 = 0x3C := by decide
/-- A5, with a lit bit in common added, and VF unchanged. -/
theorem test_orReg : (after 0x8121 (V (V (V start 1 0xF0) 2 0x3C) 0xF 7)).reg 1 = 0xFC ∧
    (after 0x8121 (V (V (V start 1 0xF0) 2 0x3C) 0xF 7)).reg 0xF = 7 := by decide
/-- A6. -/
theorem test_andReg : (after 0x8122 (V (V start 1 0xF0) 2 0x3C)).reg 1 = 0x30 := by decide
/-- A7. -/
theorem test_xorReg : (after 0x8123 (V (V start 1 0xF0) 2 0x3C)).reg 1 = 0xCC := by decide
/-- A8, A11. -/
theorem test_addReg :
    (after 0x8124 (V (V start 1 0xFF) 2 2)).reg 1 = 1 ∧ (after 0x8124 (V (V start 1 0xFF) 2 2)).reg 0xF = 1 ∧
    (after 0x8124 (V (V start 1 0xFE) 2 1)).reg 1 = 0xFF ∧
    (after 0x8124 (V (V start 1 0xFE) 2 1)).reg 0xF = 0 := by decide
/-- A25: x = F under each `VF_ORDER`. -/
theorem test_addReg_to_VF : (after 0x8F14 (V (V start 0xF 0xFF) 1 1)).reg 0xF = 1 ∧
    (after 0x8F14 (V (V startExclusive 0xF 0xFF) 1 1)).reg 0xF = 0 := by decide
/-- A13, A14. -/
theorem test_subReg :
    (after 0x8125 (V (V start 1 5) 2 3)).reg 1 = 2 ∧ (after 0x8125 (V (V start 1 5) 2 3)).reg 0xF = 1 ∧
    (after 0x8125 (V (V start 1 3) 2 5)).reg 1 = 0xFE ∧
    (after 0x8125 (V (V start 1 3) 2 5)).reg 0xF = 0 := by decide
/-- A15: equal operands leave VF = 0. -/
theorem test_subReg_equal : (after 0x8125 (V (V (V start 1 5) 2 5) 0xF 9)).reg 0xF = 0 := by decide
/-- A21 (y is not read), A20. -/
theorem test_shr :
    (after 0x8126 (V (V start 1 2) 2 0xFF)).reg 1 = 1 ∧ (after 0x8126 (V (V start 1 2) 2 0xFF)).reg 0xF = 0 ∧
    (after 0x8106 (V start 1 0xFF)).reg 1 = 0x7F ∧ (after 0x8106 (V start 1 0xFF)).reg 0xF = 1 := by decide
/-- A27: x = F under each `VF_ORDER`. -/
theorem test_shr_of_VF : (after 0x8F06 (V start 0xF 2)).reg 0xF = 0 ∧
    (after 0x8F06 (V startExclusive 0xF 2)).reg 0xF = 1 := by decide
/-- A16, A17. -/
theorem test_subn :
    (after 0x8127 (V (V start 1 3) 2 5)).reg 1 = 2 ∧ (after 0x8127 (V (V start 1 3) 2 5)).reg 0xF = 1 ∧
    (after 0x8127 (V (V start 1 5) 2 3)).reg 1 = 0xFE ∧
    (after 0x8127 (V (V start 1 5) 2 3)).reg 0xF = 0 := by decide
/-- A22, A23; V0 = 0, so y is not read. -/
theorem test_shl :
    (after 0x810E (V start 1 0x81)).reg 1 = 2 ∧ (after 0x810E (V start 1 0x81)).reg 0xF = 1 ∧
    (after 0x810E (V start 1 0x40)).reg 1 = 0x80 ∧ (after 0x810E (V start 1 0x40)).reg 0xF = 0 := by decide
/-- A29: a draw masked with 0 is 0, whatever the draw. -/
theorem test_rnd_masked : (after 0xC100 (V start 1 0x77)).reg 1 = 0 := by
  have h : (after 0xC100 (V start 1 0x77)).reg 1 = Config.rngDraw 0 &&& 0 := rfl
  rw [h]; simp

/-! ### Index and memory -/

/-- M1. -/
theorem test_ldI : (after 0xAFFF start).idx = 0x0FFF := by decide
/-- M3: the sum wraps at 16 bits, VF unchanged. -/
theorem test_addI : (after 0xF11E (V (atIndex start 0xFFFF) 1 1)).idx = 0 ∧
    (after 0xF11E (V (atIndex start 0xFFFF) 1 1)).reg 0xF = 0 := by decide
/-- M6, M9. -/
theorem test_ldF : (after 0xF129 (V start 1 0x0A)).idx = 0x0032 ∧
    (after 0xF129 (V start 1 0xFF)).idx = 0x04FB := by decide
/-- P2: 254. -/
theorem test_ldB :
    (after 0xF033 (V (atIndex start 0x300) 0 254)).mem.readBytes 0x300 3 = [2, 5, 4] ∧
    (after 0xF033 (V (atIndex start 0x300) 0 254)).idx = 0x300 := by decide
/-- M14: checked before any write. -/
theorem test_ldB_out_of_range :
    (after 0xF033 (V (atIndex start 0xFFE) 0 1)).run =
      .faulted ⟨.outOfRangeAddress, 0x200, some 0xF033, some 0x1000⟩ ∧
    (after 0xF033 (V (atIndex start 0xFFE) 0 1)).mem = (start.withFetchWord 16 0xF033).mem := by decide
/-- M15: V0..V2 inclusive, V0..V1 exclusive. -/
theorem test_ldStore :
    (after 0xF255 (V (V (V (atIndex start 0x300) 0 1) 1 2) 2 3)).mem.readBytes 0x300 3 = [1, 2, 3] ∧
    (after 0xF255 (V (V (V (atIndex startExclusive 0x300) 0 1) 1 2) 2 3)).mem.readBytes 0x300 3 =
      [1, 2, 0] := by decide
/-- M17, M18: the check covers exactly the bytes moved. -/
theorem test_ldStore_range :
    (after 0xF155 (atIndex start 0xFFF)).run =
      .faulted ⟨.outOfRangeAddress, 0x200, some 0xF155, some 0x1000⟩ ∧
    (after 0xF155 (V (atIndex startExclusive 0xFFF) 0 0xAA)).mem.readByte 0xFFF = 0xAA ∧
    (after 0xF055 (atIndex startExclusive 0x1000)).run = .running := by decide
/-- M19. -/
theorem test_ldLoad :
    ((after 0xF265 (bytesAt (atIndex start 0x300) 0x300 [2, 5, 4])).regs.toList.take 4 = [2, 5, 4, 0]) ∧
    ((after 0xF265 (bytesAt (atIndex startExclusive 0x300) 0x300 [2, 5, 4])).regs.toList.take 4 =
      [2, 5, 0, 0]) := by decide
/-- M21: the first address out of range is I itself. -/
theorem test_ldLoad_out_of_range :
    (after 0xF065 (atIndex start 0x1234)).run =
      .faulted ⟨.outOfRangeAddress, 0x200, some 0xF065, some 0x1234⟩ := by decide

/-! ### Display -/

/-- DP1. -/
theorem test_cls : onIn (after 0x00E0 (lit (lit start 3 0) 63 31)) 0 = [] ∧
    onIn (after 0x00E0 (lit (lit start 3 0) 63 31)) 31 = [] := by decide
/-- DP4 and DP5: wrap in both directions. -/
theorem test_drw_wraps :
    onIn (after 0xD011 (bytesAt (V (atIndex start 0x300) 0 62) 0x300 [0xFF])) 0 =
      [0, 1, 2, 3, 4, 5, 62, 63] ∧
    onIn (after 0xD012 (bytesAt (V (atIndex start 0x300) 1 31) 0x300 [0x80, 0x80])) 0 = [0] := by decide
/-- DP7: a 1 to 0 anywhere sets VF. -/
theorem test_drw_collision :
    onIn (after 0xD011 (lit (bytesAt (atIndex start 0x300) 0x300 [0xC0]) 0 0)) 0 = [1] ∧
    (after 0xD011 (lit (bytesAt (atIndex start 0x300) 0x300 [0xC0]) 0 0)).reg 0xF = 1 := by decide

/-! ### Keys, timers and host calls -/

/-- K1, K5. -/
theorem test_skp : (after 0xE19E (V (start.setKey 5 true) 1 5)).pc = 0x204 ∧
    (after 0xE19E (V { start with keys := Vector.replicate 16 true } 1 0x10)).pc = 0x202 := by decide
/-- K4, K6. -/
theorem test_sknp : (after 0xE1A1 (V (start.setKey 5 true) 1 5)).pc = 0x202 ∧
    (after 0xE1A1 (V start 1 0x10)).pc = 0x204 := by decide
/-- K13. -/
theorem test_ldVxDT : (after 0xF107 { start with dt := 0x2A }).reg 1 = 0x2A := by decide
/-- K11: a held key does not end the wait, the next press does. -/
theorem test_ldVxK : (after 0xF30A (start.setKey 4 true)).run = .awaitingKey 3 ∧
    ((after 0xF30A (start.setKey 4 true)).deliverKey 9 true).reg 3 = 9 := by decide
/-- K9: a release does not end the wait. -/
theorem test_release_keeps_waiting :
    ((after 0xF30A start).deliverKey 7 false).run = .awaitingKey 3 := by decide
/-- S6. -/
theorem test_ldDT : (after 0xF015 (V start 0 2)).tick.dt = 1 := by decide
/-- K15, and the first tick of K16. -/
theorem test_ldST : (after 0xF218 (V start 2 3)).st = 3 ∧ (after 0xF218 (V start 2 3)).soundActive = false ∧
    (after 0xF218 (V start 2 3)).tick.soundActive = true := by decide
/-- K17. -/
theorem test_tick_floor : start.tick = start := by decide
/-- R164, R165: a load is refused whole. -/
theorem test_load_refused : (start.hostLoad 0xFFF [1, 2]) = (start, .refused) ∧
    (start.hostLoad 0xFFE [1, 2]).2 = .ok := by decide
/-- R27: glyph A of the default font, at 0x032 (P4). -/
theorem test_font : start.mem.readBytes 0x032 5 = [0xF0, 0x90, 0xF0, 0x90, 0x90] := by decide

/-! ### For each statement with hypotheses or cases: states and operands that meet them -/

/-- An engine with the word placed at pc, the next step's. -/
def at200 (w : Nat) (s : State) : State := s.withFetchWord 16 w

def underflow : FaultRecord := ⟨.stackUnderflow, 0x200, some 0x00EE, none⟩

/-- The engine after a RET on an empty stack. -/
def faulted : State := { at200 0x00EE start with pc := 0x202, run := .faulted underflow }

def waiting : State := { start with run := .awaitingKey 3 }

theorem fetches_of {s : State} {i : Instr} (h : s.run = .running ∧ s.pc.toNat ≤ 0xFFE ∧
    decode (s.mem.readWord s.pc.toNat) = .instr i) : s.fetches i := h

theorem witness_DecodeOfEncodeIsTheInstruction :
    (Instr.sys 0xFFF).wf = true ∧ (Instr.drw 15 15 15).wf = true ∧ (Instr.ldImm 0 0).wf = true := by decide

theorem witness_DecoderIsTotalAndUnambiguous :
    decode 0x812E = .instr (.shl 1 2) ∧ (Instr.shl 1 2).wf = true ∧ encode (.shl 1 2) = 0x812E ∧
    decode 0x812F = .unknown 0x812F := by decide

theorem witness_UnknownWordsAreTheListedAndAreSkipped :
    (at200 0x5121 (atPc start 0xFFE)).run = .running ∧
    (at200 0x5121 (atPc start 0xFFE)).pc.toNat ≤ 0xFFE ∧
    (at200 0x5121 (atPc start 0xFFE)).mem.readWord 0xFFE = 0x5121 ∧
    decode 0x5121 = .unknown 0x5121 := by decide

theorem witness_StepRunsTheDecodedInstruction :
    (at200 0x1204 (atPc start 0xFFE)).run = .running ∧ (at200 0x1204 (atPc start 0xFFE)).pc = 0xFFE ∧
    decode (wordOfBytes ((at200 0x1204 (atPc start 0xFFE)).mem.readByte 0xFFE)
      ((at200 0x1204 (atPc start 0xFFE)).mem.readByte (0xFFE + 1))) = .instr (.jp 0x204) := by decide

/-- One state for each clause; the two that meet, pc ≤ 0xFFE and pc ≥ 0xFFF, at their boundary. -/
theorem witness_StepCycleAndItsResults :
    faulted.run = .faulted underflow ∧ waiting.run = .awaitingKey 3 ∧
    ((atPc start 0xFFF).run = .running ∧ 0xFFF ≤ (atPc start 0xFFF).pc.toNat) ∧
    ((at200 0x5121 (atPc start 0xFFE)).run = .running ∧ (at200 0x5121 (atPc start 0xFFE)).pc = 0xFFE ∧
      (at200 0x5121 (atPc start 0xFFE)).mem.readByte 0xFFE = 0x51 ∧
      (at200 0x5121 (atPc start 0xFFE)).mem.readByte 0xFFF = 0x21 ∧
      decode 0x5121 = .unknown 0x5121) ∧
    (decode ((at200 0x1204 (atPc start 0xFFE)).mem.readWord 0xFFE) = .instr (.jp 0x204)) := by decide

/-- A fault of the fetch, at the lowest pc, and one of an instruction. -/
theorem witness_FaultsArePrecise :
    (∃ t f, (atPc start 0xFFF).run = .running ∧ step (atPc start 0xFFF) = .next t ∧
      t.run = .faulted f ∧ f.op = none) ∧
    (∃ t, (at200 0x00EE start).run = .running ∧ step (at200 0x00EE start) = .next t ∧
      t.run = .faulted underflow) :=
  ⟨⟨_, _, rfl, next_of_nextOf (t := { atPc start 0xFFF with
      run := .faulted ⟨.outOfRangeAddress, 0xFFF, none, some 0x1000⟩ }) (by decide), rfl, rfl⟩,
    ⟨faulted, by decide, next_of_nextOf (by decide), rfl⟩⟩

/-- The state from which each cause faults, and the record, as `s` runs the word `w`. -/
def faultsWith (w : Nat) (s : State) (k : FaultKind) (addr : Option Nat) : Prop :=
  (at200 w s).run = .running ∧
    ∃ t, step (at200 w s) = .next t ∧ t.run = .faulted ⟨k, 0x200, some (BitVec.ofNat 16 w), addr⟩

theorem faultsWith_of {w : Nat} {s : State} {k : FaultKind} {addr : Option Nat}
    (h : (at200 w s).run = .running ∧ (nextOf (step (at200 w s))).map State.run =
      some (.faulted ⟨k, 0x200, some (BitVec.ofNat 16 w), addr⟩)) : faultsWith w s k addr := by
  obtain ⟨h1, h2⟩ := h
  refine ⟨h1, ?_⟩
  cases e : step (at200 w s) with
  | next t => exact ⟨t, rfl, by simpa [e, nextOf] using h2⟩
  | fault r => cases r
  | refused r => simp [e, nextOf] at h2

theorem witness_EachFaultHasItsCause :
    faultsWith 0x2300 (depth start 16) .stackOverflow none ∧
    faultsWith 0x00EE start .stackUnderflow none ∧
    faultsWith 0xD012 (atIndex start 0xFFF) .outOfRangeAddress (some 0x1000) ∧
    faultsWith 0xF033 (atIndex start 0xFFE) .outOfRangeAddress (some 0x1000) ∧
    faultsWith 0xF155 (atIndex start 0xFFF) .outOfRangeAddress (some 0x1000) ∧
    faultsWith 0xF065 (atIndex start 0x1234) .outOfRangeAddress (some 0x1234) :=
  ⟨faultsWith_of (by decide), faultsWith_of (by decide), faultsWith_of (by decide),
    faultsWith_of (by decide), faultsWith_of (by decide), faultsWith_of (by decide)⟩

theorem witness_FaultedStaysFaulted :
    faulted.run = .faulted underflow ∧
    hostCall .tick faulted = .next (faulted.tick, .ticked false) ∧
    hostCall (.deliverKey 2 true) faulted = .next (faulted.setKey 2 true, .nothing) ∧
    HostCall.construct ∉ [HostCall.step, .tick, .deliverKey 2 true, .loadProgram [0x12, 0x00]] :=
  ⟨rfl, rfl, rfl, by decide⟩

/-- The cases of `writesResultAndFlag`: another register, and VF under each `VF_ORDER`. -/
theorem witness_AddSetsCarry :
    (0xE : Reg) ≠ regF ∧ (0xF : Reg) = regF ∧ start.params.vfOrder = .flagLast ∧
    startExclusive.params.vfOrder = .resultLast := by decide

theorem witness_OnlyTheNamedInstructionsWriteVF :
    ∃ t, exec (.addReg 1 2) (V (V start 1 0xFF) 2 2) = .next t ∧
      t.reg regF ≠ (V (V start 1 0xFF) 2 2).reg regF := ⟨_, rfl, by decide⟩

/-- The neighbours of the two words of family 0 that are no SYS. -/
theorem witness_SysAndJumps :
    (0x0E1#12 ≠ 0x0E0 ∧ 0x0E1#12 ≠ 0x0EE) ∧ (0x0EF#12 ≠ 0x0E0 ∧ 0x0EF#12 ≠ 0x0EE) := by decide

/-- Each skip's condition holds of one pair of values and fails of another. -/
theorem witness_RegisterSkips :
    (V start 3 0x42).reg 3 = 0x42 ∧ (V start 3 0x41).reg 3 ≠ 0x42 ∧
    (V start 3 0x42).reg 3 ≠ (V start 3 0x42).reg 4 ∧ start.reg 3 = start.reg 4 := by decide

/-- One entry below the depth, at the depth, and without a bound. -/
theorem witness_CallPushesOrOverflows :
    (depth start 15).params.stackDepth ≠ .bounded (depth start 15).stack.length ∧
    (depth start 16).params.stackDepth = .bounded (depth start 16).stack.length ∧
    (depth startExclusive 16).params.stackDepth ≠ .bounded (depth startExclusive 16).stack.length := by
  decide

theorem witness_RetPopsOrUnderflows :
    (depth start 1).stack = [] ++ [0x202] ∧ (depth start 2).stack = [0x202] ++ [0x202] ∧
    start.stack = [] := by decide

/-- One entry below the depth, the callee having changed a register. -/
theorem witness_RetReturnsToAfterTheCall :
    ∃ t, exec (.call 0x300) (depth start 15) = .next t ∧ t.run = (depth start 15).run ∧
      (depth start 15).run = .running ∧ (V t 1 1).stack = t.stack := ⟨_, rfl, rfl, rfl, rfl⟩

theorem witness_PcAdvancesByTwoButForTransfers :
    (at200 0x3000 start).fetches (.seImm 0 0) ∧
    (∃ t, step (at200 0x3000 start) = .next t ∧ t.pc = (at200 0x3000 start).pc + 4) ∧
    (at200 0x3001 start).fetches (.seImm 0 1) ∧
    (∃ t, step (at200 0x3001 start) = .next t ∧ t.pc = (at200 0x3001 start).pc + 2) ∧
    (at200 0x6AFF start).fetches (.ldImm 0xA 0xFF) ∧ (at200 0x1200 start).fetches (.jp 0x200) :=
  ⟨fetches_of (by decide), ⟨_, rfl, by decide⟩, fetches_of (by decide), ⟨_, rfl, by decide⟩,
    fetches_of (by decide), fetches_of (by decide)⟩

/-- The last I that stores, and the first that faults. -/
theorem witness_BcdStoresThreeDigits :
    (atIndex start 0xFFD).mem.wf = true ∧ (atIndex start 0xFFD).idx.toNat + 2 ≤ 0xFFF ∧
    (atIndex start 0xFFE).mem.wf = true ∧ 0xFFF < (atIndex start 0xFFE).idx.toNat + 2 := by decide

/-- Both parameters, no register at all, the last I that stores, and the first that faults. -/
theorem witness_BlockStoreWritesTheFirstRegisters :
    ((atIndex start 0xFF0).mem.wf = true ∧ (atIndex start 0xFF0).params.blockCopyInclusive = true ∧
      16 = (15 : Reg).val + 1 ∧ (atIndex start 0xFF0).idx.toNat + 16 - 1 ≤ 0xFFF) ∧
    ((atIndex start 0xFF1).mem.wf = true ∧ 0 < 16 ∧ 0xFFF < (atIndex start 0xFF1).idx.toNat + 16 - 1) ∧
    ((atIndex startExclusive 0x1000).mem.wf = true ∧ startExclusive.params.blockCopyInclusive = false ∧
      0 = (0 : Reg).val) := by decide

theorem witness_BlockLoadReadsTheFirstRegisters :
    ((atIndex start 0xFF0).params.blockCopyInclusive = true ∧ 16 = (15 : Reg).val + 1 ∧
      (atIndex start 0xFF0).idx.toNat + 16 - 1 ≤ 0xFFF) ∧
    (0 < 16 ∧ 0xFFF < (atIndex start 0xFF1).idx.toNat + 16 - 1) ∧
    (startExclusive.params.blockCopyInclusive = false ∧ 0 = (0 : Reg).val) := by decide

/-- M22: the stored word is JP 0x200. -/
def selfModifying : State := at200 0xF155 (V (atIndex start 0x202) 0 0x12)

theorem witness_StoredWordIsFetchedNext :
    selfModifying.mem.wf = true ∧ selfModifying.fetches (.ldStore 1) ∧
    selfModifying.idx = selfModifying.pc + 2 ∧ 2 ≤ blockCount selfModifying.params 1 ∧
    selfModifying.idx.toNat + blockCount selfModifying.params 1 ≤ 0x1000 ∧
    decode (wordOfBytes (selfModifying.reg 0) (selfModifying.reg 1)) = .instr (.jp 0x200) :=
  ⟨by decide, fetches_of (by decide), by decide, by decide, by decide, by decide⟩

/-- M22: the next step runs it. -/
theorem test_self_modifying_code : (afterTwo selfModifying).pc = 0x200 := by decide

/-- No row at all, the last I that draws, and the first that faults. -/
theorem witness_DrawInvertsTheSpritesCells :
    (0#4).toNat = 0 ∧ (atIndex start 0xFFE).idx.toNat + (2#4).toNat - 1 ≤ 0xFFF ∧
    (0 < (2#4).toNat ∧ 0xFFF < (atIndex start 0xFFF).idx.toNat + (2#4).toNat - 1) := by decide

/-- A draw of one pixel, at (0, 0), over a clear framebuffer. -/
def onePixel : State := bytesAt (atIndex start 0x300) 0x300 [0x80]

theorem witness_DrawTwiceRestoresTheFramebuffer :
    (∃ t, exec (.drw 0 1 1) onePixel = .next t ∧ t.reg 0 = onePixel.reg 0 ∧
      t.reg 1 = onePixel.reg 1) ∧
    onePixel.idx.toNat + (1#4).toNat - 1 ≤ 0xFFF ∧
    (∃ c r, onePixel.underSprite 0 1 (1#4).toNat c r ∧ onePixel.cell c r = false) :=
  ⟨⟨_, rfl, by decide, by decide⟩, by decide,
    ⟨0, 0, ⟨0, 0, by decide, by decide, by decide, by decide, by decide⟩, by decide⟩⟩

/-- Log 26: over a cell that was on, the second draw of the same pixel gives VF = 0 (R125's pseudocode,
by hand: the first draw turns the cell off, the second on). -/
theorem test_drw_twice_over_a_lit_cell :
    (after 0xD011 (lit onePixel 0 0)).reg 0xF = 1 ∧
    (after 0xD011 (atPc (after 0xD011 (lit onePixel 0 0)) 0x200)).reg 0xF = 0 := by decide

/-- The last column and row of the largest sprite, wrapped, and two rows that wrap onto row 0. -/
theorem witness_DrawDoesNotDependOnPixelOrder :
    (7 < 8 ∧ 14 < 15 ∧ spriteCell 63 31 7 14 = spriteCell 63 31 7 14) ∧
    (List.replicate 15 0xFF#8).length ≤ 15 ∧
    ([0x80#8, 0x80#8].length ≤ 15 ∧
      [((0, 0) : Col × Row), (0, 31)].Perm (spriteCells 0 31 0 [0x80#8, 0x80#8])) :=
  ⟨by decide, by decide, by decide, List.Perm.swap _ _ _⟩

/-- R121 by hand: the sprite pixel (7, 14) drawn at (63, 31). -/
theorem test_spriteCell_wraps : spriteCell 63 31 7 14 = (6, 13) := by decide

/-- A pressed key, one not pressed, and the first value that names no key. -/
theorem witness_KeySkips :
    (∃ k : Key, k.val = ((V (start.setKey 15 true) 1 15).reg 1).toNat ∧
      (V (start.setKey 15 true) 1 15).key k = true) ∧
    (¬∃ k : Key, k.val = ((V start 1 15).reg 1).toNat ∧ (V start 1 15).key k = true) ∧
    (¬∃ k : Key, k.val = ((V start 1 16).reg 1).toNat ∧ (V start 1 16).key k = true) := by decide

/-- The delay timer changed by a tick and by a step. -/
theorem witness_DelayTimerTransfers :
    (∃ t r, hostCall .tick { start with dt := 1 } = .next (t, r) ∧
      t.dt ≠ ({ start with dt := 1 } : State).dt) ∧
    (∃ t r, hostCall .step (at200 0xF115 (V start 1 1)) = .next (t, r) ∧
      t.dt ≠ (at200 0xF115 (V start 1 1)).dt) :=
  ⟨⟨_, _, rfl, by decide⟩, ⟨_, _, rfl, by decide⟩⟩

/-- Entering the wait, leaving it, a step during it, and entering `Faulted`. -/
theorem witness_OnlyAKeyPressEndsTheWait :
    (∃ t r, hostCall .step (at200 0xF30A start) = .next (t, r) ∧ t.run = .awaitingKey 3 ∧
      (at200 0xF30A start).run ≠ .awaitingKey 3) ∧
    (at200 0xF30A start).fetches (.ldVxK 3) ∧
    (∃ t r, hostCall (.deliverKey 7 true) waiting = .next (t, r) ∧ waiting.run = .awaitingKey 3 ∧
      t.run ≠ .awaitingKey 3 ∧ HostCall.deliverKey 7 true ≠ .construct) ∧
    (∃ t r, hostCall .step (at200 0x00EE start) = .next (t, r) ∧ t.run = .faulted underflow ∧
      (at200 0x00EE start).run ≠ .faulted underflow) :=
  ⟨⟨_, _, rfl, by decide, by decide⟩, fetches_of (by decide), ⟨_, _, rfl, rfl, by decide, by decide⟩,
    ⟨_, _, rfl, by decide, by decide⟩⟩

/-- The tick's boundary: ST = 0, 1 and 255. -/
theorem witness_TickCountsBothTimersDown :
    (start.tick.soundActive = false ∧ ¬0 < start.st.toNat) ∧
    ((State.tick { start with st := 1 }).soundActive = true ∧ (State.tick { start with st := 1 }).st = 0) ∧
    (State.tick { start with st := 255 }).st = 254 := by decide

/-- A key, a step that runs a SYS and a load between two ticks. -/
theorem witness_SoundLastsAsManyTicksAsST :
    soundUndisturbed [.tick, .deliverKey 7 true, .step, .loadProgram [0x12, 0x00], .tick]
      { start with st := 1 } := by
  refine ⟨by decide, nofun, fun t r h => ?_⟩; cases h
  refine ⟨by decide, nofun, fun t r h => ?_⟩; cases h
  refine ⟨by decide, fun _ x hx => ?_, fun t r h => ?_⟩
  · exact nomatch (show Decoded.instr (.sys 0) = .instr (.ldST x) from hx.2.2)
  cases h
  refine ⟨by decide, nofun, fun t r h => ?_⟩; cases h
  exact ⟨by decide, nofun, fun _ _ _ => trivial⟩

/-- K16, with a step and a key between the ticks: ST = 3 gives three reports of sound. -/
theorem test_tick_reports :
    tickReports [.tick, .step, .tick, .deliverKey 7 true, .tick, .tick] { start with st := 3 } =
      [true, true, true, false] := by decide

/-- A press and a release while waiting, and a press while running. -/
theorem witness_DeliverKeySetsTheLatchAndResumes :
    waiting.run = .awaitingKey 3 ∧ (∀ d, start.run ≠ .awaitingKey d) ∧
    (waiting.deliverKey 7 true).run = .running ∧ (waiting.deliverKey 7 false).run = .awaitingKey 3 :=
  ⟨rfl, by decide, by decide, by decide⟩

/-- The longest load that fits at 0xFFE, the shortest that does not, and an empty one. -/
theorem witness_LoadsWriteAllOrNothing :
    start.mem.wf = true ∧ 0xFFE + [1#8, 2#8].length ≤ 0x1000 ∧ 0x1000 < 0xFFE + [1#8, 2#8, 3#8].length ∧
    0x200 + ([] : List Byte).length ≤ 0x1000 := by decide

/-- A new engine with a FONT other than the default, and one constructed again by the host. -/
theorem witness_ConstructionValues :
    (∃ p s, s = State.construct p ∧ p.font ≠ defaultFont) ∧
    (∃ s u r, u.params = paramsInclusive ∧ hostCall .construct u = .next (s, r)) :=
  ⟨⟨{ paramsInclusive with font := Vector.replicate 80 0 }, _, rfl, by decide⟩,
    ⟨_, waiting, _, rfl, rfl⟩⟩

/-- A running, a waiting and a faulted state that meet the invariant, with a stored byte and a full
stack. -/
theorem witness_StepKeepsTheInvariant :
    (bytesAt (depth start 16) 0xFFF [1]).inv = true ∧ waiting.inv = true ∧ faulted.inv = true := by decide

theorem witness_EveryRunOfCallsKeepsTheInvariant :
    ∃ cs : List HostCall, cs = [.step, .tick, .construct, .deliverKey 2 true] ∧ faulted.inv = true :=
  ⟨_, rfl, by decide⟩

/-- Each part is written by some instruction. -/
theorem witness_OnlyTheNamedInstructionsWriteEachPart :
    (after 0x6A01 start).reg 0xA ≠ start.reg 0xA ∧ (after 0x1300 start).pc ≠ start.pc + 2 ∧
    (after 0xF30A start).run ≠ start.run ∧ (after 0xC1FF start).draws ≠ start.draws ∧
    (after 0xF033 (V (atIndex start 0x300) 0 1)).mem ≠ (at200 0xF033 start).mem ∧
    (after 0xA300 start).idx ≠ start.idx ∧ (after 0x2300 start).stack ≠ start.stack ∧
    (after 0xF115 (V start 1 1)).dt ≠ start.dt ∧ (after 0xF118 (V start 1 1)).st ≠ start.st ∧
    (after 0x00E0 (lit start 0 0)).fb ≠ (lit start 0 0).fb := by decide

theorem witness_SoundStateIsNeverRead :
    (∀ x, Instr.ldDT 1 ≠ .ldST x) ∧ ∃ t, exec (.ldDT 1) (V start 1 1) = .next t ∧ t.dt = 1 :=
  ⟨by decide, _, rfl, rfl⟩

theorem witness_StepsAtAnEndedStateChangeNothing :
    (at200 0x1200 start).ended = some .selfJump ∧ waiting.ended = some .waiting ∧
    faulted.ended = some .fault := by decide

/-- A host that ticks and steps by turns. -/
def tickAndStep : CallSequence := fun n => if n % 2 = 0 then .tick else .step

/-- It leaves a waiting engine waiting. -/
theorem tickAndStep_waits (s : State) (d : Reg) (hs : s.run = .awaitingKey d) (n : Nat) :
    ∃ t, tickAndStep.runTo n s = .next t ∧ t.run = .awaitingKey d := by
  induction n with
  | zero => exact ⟨s, rfl, hs⟩
  | succ n ih =>
    obtain ⟨t, ht, hr⟩ := ih
    by_cases hn : n % 2 = 0
    · exact ⟨t.tick, CallSequence.runTo_succ (r := .ticked t.tick.soundActive) ht
        (by rw [tickAndStep, if_pos hn]; rfl), hr⟩
    · exact ⟨t, CallSequence.runTo_succ ht
        (by rw [tickAndStep, if_neg hn]; exact hostCall_step (step_of_awaiting hr)), hr⟩

/-- A waiting engine whose delay timer is 255, under a host that keeps ticking and one that only steps. -/
theorem witness_DelayRunsOutUnderAHostThatKeepsTicking :
    (tickAndStep.keepsTicking ∧ tickAndStep.delayUndisturbed { waiting with dt := 255 }) ∧
    ((∀ n, (fun _ => .step : CallSequence) n ≠ .tick) ∧
      CallSequence.delayUndisturbed (fun _ => .step) faulted) := by
  refine ⟨⟨fun n => ⟨2 * n, by omega, by simp [tickAndStep]⟩, fun n => ?_, fun n t ht _ x hx => ?_⟩,
    fun _ => nofun, fun _ => nofun, fun n t ht _ x hx => ?_⟩
  · unfold tickAndStep; split <;> nofun
  · obtain ⟨u, hu, hr⟩ := tickAndStep_waits { waiting with dt := 255 } 3 rfl n
    rw [hu] at ht; cases ht
    exact nomatch hr.symm.trans hx.1
  · have stays : ∀ n, CallSequence.runTo (fun _ => .step) n faulted = .next faulted := fun n => by
      induction n with
      | zero => rfl
      | succ n ih => exact CallSequence.runTo_succ ih (hostCall_step (step_of_faulted rfl))
    rw [stays n] at ht; cases ht
    exact nomatch hx.1

/-- A host that presses key 7 at its second call, and one that never does. -/
theorem witness_KeyWaitEndsIffTheHostPressesAKey :
    (CallSequence.keepsTheEngine fun n => if n = 1 then .deliverKey 7 true else .step) ∧
    (CallSequence.pressesAKey fun n => if n = 1 then .deliverKey 7 true else .step) ∧
    tickAndStep.keepsTheEngine ∧ ¬tickAndStep.pressesAKey ∧ waiting.run = .awaitingKey 3 := by
  refine ⟨fun n => ?_, ⟨1, 7, rfl⟩, fun n => ?_, ?_, rfl⟩
  · dsimp only; split <;> nofun
  · unfold tickAndStep; split <;> nofun
  · rintro ⟨n, k, h⟩
    unfold tickAndStep at h; split at h <;> cases h

end Sys2Proof.Tests
end

section
/-! SUPPORT. What one instruction can do to the state, said once: `Effect` lists the shapes of the
state after `exec`, and `exec_effect` says that there is no other. The statements about what
instructions write, and the step lemma of the invariant, go through it and never unfold `exec`. -/

namespace Sys2Proof.Machine

/-! ### Classes of instructions -/

/-- The registers an instruction may write (R15, R79). -/
def mayWriteReg (p : Params) (r : Reg) : Instr → Prop
  | .ldImm x _ | .addImm x _ | .rnd x _ | .ldVxDT x => r = x
  | .ldReg x _ | .orReg x _ | .andReg x _ | .xorReg x _ => r = x
  | .addReg x _ | .subReg x _ | .shr x _ | .subn x _ | .shl x _ => r = x ∨ r = regF
  | .drw _ _ _ => r = regF
  | .ldLoad x => r.val < blockCount p x
  | _ => False

/-- The instructions that put a new address into pc: JP, CALL, RET and JP V0. -/
def isTransfer : Instr → Bool
  | .jp _ | .call _ | .ret | .jpV0 _ => true
  | _ => false

/-- The six conditional skips. -/
def isSkip : Instr → Bool
  | .seImm _ _ | .sneImm _ _ | .seReg _ _ | .sneReg _ _ | .skp _ | .sknp _ => true
  | _ => false

/-- How many bytes from I upward an instruction reads or writes (R110, R111). -/
def accessCount (p : Params) : Instr → Nat
  | .drw _ _ n => n.toNat
  | .ldB _ => 3
  | .ldStore x | .ldLoad x => blockCount p x
  | _ => 0

/-! ### The causes of a fault and the effects of an instruction -/

/-- Why `i`, run at `s`, raises a fault of which kind, with which address (R151). -/
inductive FaultCause (s : State) : Instr → FaultKind → Option Nat → Prop
  | overflow (nnn : Addr) : s.stackFull = true → FaultCause s (.call nnn) .stackOverflow none
  | underflow : s.stack = [] → FaultCause s .ret .stackUnderflow none
  | badAddress (i : Instr) (b : Nat) :
      firstOutOfRange s.idx.toNat (accessCount s.params i) = some b →
      FaultCause s i .outOfRangeAddress (some b)

/-- The states that `i`, run at `s`, can lead to: one constructor per set of parts written. -/
inductive Effect (s : State) (i : Instr) : State → Prop
  | nothing : Effect s i s
  | registers (rs : Vector Byte 16) : (∀ r : Reg, ¬mayWriteReg s.params r i → rs[r] = s.regs[r]) →
      Effect s i { s with regs := rs }
  | draws (x : Reg) (kk v : Byte) : i = .rnd x kk → Effect s i (s.countDraw.setReg x v)
  | sprite (x y : Reg) (n : Nibble) (rows : List Byte) : i = .drw x y n →
      Effect s i (s.drawRows x y rows)
  | framebuffer (g : Grid) : i = .cls → Effect s i { s with fb := g }
  | index (v : Word) : ((∃ nnn, i = .ldI nnn) ∨ ∃ x, i = .addI x ∨ i = .ldF x) →
      Effect s i { s with idx := v }
  | delayTimer (x : Reg) (v : Byte) : i = .ldDT x → Effect s i { s with dt := v }
  | soundTimer (x : Reg) (v : Byte) : i = .ldST x → Effect s i { s with st := v }
  | memory (m : Memory) : (∃ x, i = .ldB x ∨ i = .ldStore x) → (s.mem.wf = true → m.wf = true) →
      Effect s i { s with mem := m }
  | skips (c : Bool) : isSkip i = true → Effect s i (s.skipIf c)
  | jumps (a : Word) : isTransfer i = true → Effect s i (s.setPc a)
  | calls (nnn : Addr) : i = .call nnn → s.stackFull = false →
      Effect s i ((s.push s.pc).setPc (zextAddr nnn))
  | returns (a : Word) : i = .ret → Effect s i (s.dropTop.setPc a)
  | waits (x : Reg) : i = .ldVxK x → Effect s i { s with run := .awaitingKey x }
  | faults (k : FaultKind) (addr : Option Nat) : FaultCause s i k addr →
      Effect s i (s.raise (s.execFault k i addr))

/-- An instruction that accesses no memory at I raises no address fault. -/
theorem accessCount_ne_zero {s : State} {i : Instr} {b : Nat}
    (h : firstOutOfRange s.idx.toNat (accessCount s.params i) = some b) :
    accessCount s.params i ≠ 0 :=
  Nat.pos_iff_ne_zero.1 (firstOutOfRange_some h).1

/-! ### The effect of each shared operation -/

theorem Effect.setReg {s : State} {i : Instr} {x : Reg} (v : Byte) (hx : mayWriteReg s.params x i) :
    Effect s i (s.setReg x v) :=
  .registers _ fun _ hr => State.reg_setReg_of_ne s v fun e => hr (e ▸ hx)

theorem Effect.writeWithFlag {s : State} {i : Instr} {x : Reg} (res : Byte) (flag : Bool)
    (hx : mayWriteReg s.params x i) (hF : mayWriteReg s.params regF i) :
    Effect s i (s.writeWithFlag x res flag) := by
  rw [State.writeWithFlag_frame]
  refine .registers _ fun r hr => ?_
  have hrx : r ≠ x := fun e => hr (e ▸ hx)
  have hrF : r ≠ regF := fun e => hr (e ▸ hF)
  have hreg := State.reg_writeWithFlag s x r res flag
  rwa [if_neg hrF, if_neg hrx] at hreg

/-- A block load writes the registers below the length of what it read (R117). -/
theorem Effect.setRegs {s : State} {x : Reg} {bs : List Byte}
    (h : bs.length = blockCount s.params x) : Effect s (.ldLoad x) (s.setRegs bs) := by
  refine .registers _ fun r hr => ?_
  have hlen : bs.length ≤ r.val := h ▸ not_lt.1 hr
  exact (State.reg_setRegs s bs r).trans (List.getD_eq_default _ _ hlen)

/-- An access that does not fit at I is a fault of the instruction, with the first bad address. -/
theorem Effect.badAccess {s : State} {i : Instr} {n : Nat} (hn : n = accessCount s.params i)
    (hr : ¬(n = 0 ∨ s.effectiveAddress 0 + n ≤ memorySize)) :
    Effect s i (s.raise
      (s.execFault .outOfRangeAddress i (some (max (s.effectiveAddress 0) memorySize)))) :=
  .faults _ _ (.badAddress i _ (hn ▸ (firstOutOfRange_eq s.idx.toNat n).trans (if_neg hr)))

/-- A store of as many bytes as the instruction accesses: the bytes, or the fault (R36, R111). -/
theorem Effect.store {s : State} {i : Instr} {bs : List Byte}
    (hi : ∃ x, i = .ldB x ∨ i = .ldStore x) (hn : bs.length = accessCount s.params i) :
    Effect s i (s.store i (s.effectiveAddress 0) bs) := by
  rw [State.store_eq]
  split
  case isTrue hr =>
    have hw := (Memory.checkedWrite_eq s.mem (s.effectiveAddress 0) bs).trans (if_pos hr)
    exact .memory _ hi fun hm => Memory.checkedWrite_wf hm hw
  case isFalse hr => exact .badAccess hn hr

/-- A load of as many bytes as the instruction accesses: what is done with them, or the fault
(R36, R111). -/
theorem Effect.load {s : State} {i : Instr} {n : Nat} {use : List Byte → State}
    (hn : n = accessCount s.params i) (huse : ∀ bs, bs.length = n → Effect s i (use bs)) :
    Effect s i (s.load i (s.effectiveAddress 0) n use) := by
  rw [State.load_eq]
  split
  case isTrue => exact huse _ (Memory.length_readBytes ..)
  case isFalse hr => exact .badAccess hn hr

theorem execCall_effect {nnn : Addr} {s t : State} (h : execCall nnn s = .next t) :
    Effect s (.call nnn) t := by
  unfold execCall at h
  split at h
  · cases h; exact .faults _ _ (.overflow nnn ‹_›)
  · cases h; exact .calls nnn rfl (Bool.eq_false_iff.2 ‹_›)

theorem execRet_effect {s t : State} (h : execRet s = .next t) : Effect s .ret t := by
  unfold execRet at h
  split at h
  · cases h; exact .faults _ _ (.underflow (List.getLast?_eq_none_iff.1 ‹_›))
  · cases h; exact .returns _ rfl

/-- Everything an instruction can do. -/
theorem exec_effect {i : Instr} {s t : State} (h : exec i s = .next t) : Effect s i t := by
  cases i with
  | call nnn => exact execCall_effect h
  | ret => exact execRet_effect h
  | sys nnn => cases h; exact .nothing
  | cls => cases h; exact .framebuffer _ rfl
  | jp nnn | jpV0 nnn => cases h; exact .jumps _ rfl
  | seImm x kk | sneImm x kk => cases h; exact .skips _ rfl
  | seReg x y | sneReg x y => cases h; exact .skips _ rfl
  | skp x | sknp x => cases h; exact .skips _ rfl
  | ldImm x kk | addImm x kk => cases h; exact .setReg _ rfl
  | ldReg x y | orReg x y | andReg x y | xorReg x y => cases h; exact .setReg _ rfl
  | ldVxDT x => cases h; exact .setReg _ rfl
  | addReg x y | subReg x y | shr x y | subn x y | shl x y =>
    cases h; exact .writeWithFlag _ _ (.inl rfl) (.inr rfl)
  | rnd x kk => cases h; exact .draws x kk _ rfl
  | drw x y n => cases h; exact .load rfl fun bs _ => .sprite x y n bs rfl
  | ldI nnn => cases h; exact .index _ (.inl ⟨nnn, rfl⟩)
  | addI x => cases h; exact .index _ (.inr ⟨x, .inl rfl⟩)
  | ldF x => cases h; exact .index _ (.inr ⟨x, .inr rfl⟩)
  | ldVxK x => cases h; exact .waits x rfl
  | ldDT x => cases h; exact .delayTimer x _ rfl
  | ldST x => cases h; exact .soundTimer x _ rfl
  | ldB x => cases h; exact .store ⟨x, .inl rfl⟩ rfl
  | ldStore x =>
    cases h
    have hlen : (s.firstRegs (blockCount s.params x)).length = blockCount s.params x := by
      rw [State.length_firstRegs, Nat.min_eq_left (blockCount_le s.params x)]
    exact .store ⟨x, .inr rfl⟩ hlen
  | ldLoad x => cases h; exact .load rfl fun _ hbs => .setRegs hbs

end Sys2Proof.Machine
end

section
/-! SUPPORT. Which instructions write each part of the state, from the effects, and the statements
that say it (R15 to R24, R35, R79). -/

namespace Sys2Proof.Machine

section
variable {s t : State} {i : Instr}

theorem Effect.mem_ne (he : Effect s i t) (hne : t.mem ≠ s.mem) : ∃ x, i = .ldB x ∨ i = .ldStore x := by
  cases he with
  | memory m hi _ => exact hi
  | skips c _ => exact absurd (State.skipIf_mem s c) hne
  | _ => exact absurd rfl hne

theorem Effect.idx_ne (he : Effect s i t) (hne : t.idx ≠ s.idx) :
    (∃ nnn, i = .ldI nnn) ∨ ∃ x, i = .addI x ∨ i = .ldF x := by
  cases he with
  | index v hi => exact hi
  | skips c _ => exact absurd (State.skipIf_idx s c) hne
  | _ => exact absurd rfl hne

theorem Effect.stack_ne (he : Effect s i t) (hne : t.stack ≠ s.stack) :
    (∃ nnn, i = .call nnn) ∨ i = .ret := by
  cases he with
  | calls nnn hi _ => exact .inl ⟨nnn, hi⟩
  | returns a hi => exact .inr hi
  | skips c _ => exact absurd (State.skipIf_stack s c) hne
  | _ => exact absurd rfl hne

theorem Effect.dt_ne (he : Effect s i t) (hne : t.dt ≠ s.dt) : ∃ x, i = .ldDT x := by
  cases he with
  | delayTimer x v hi => exact ⟨x, hi⟩
  | skips c _ => exact absurd (State.skipIf_dt s c) hne
  | _ => exact absurd rfl hne

theorem Effect.st_ne (he : Effect s i t) (hne : t.st ≠ s.st) : ∃ x, i = .ldST x := by
  cases he with
  | soundTimer x v hi => exact ⟨x, hi⟩
  | skips c _ => exact absurd (State.skipIf_st s c) hne
  | _ => exact absurd rfl hne

theorem Effect.fb_ne (he : Effect s i t) (hne : t.fb ≠ s.fb) : i = .cls ∨ ∃ x y n, i = .drw x y n := by
  cases he with
  | framebuffer g hi => exact .inl hi
  | sprite x y n _ hi => exact .inr ⟨x, y, n, hi⟩
  | skips c _ => exact absurd (State.skipIf_fb s c) hne
  | _ => exact absurd rfl hne

theorem Effect.draws_ne (he : Effect s i t) (hne : t.draws ≠ s.draws) : ∃ x kk, i = .rnd x kk := by
  cases he with
  | draws x kk _ hi => exact ⟨x, kk, hi⟩
  | skips c _ => exact absurd (State.skipIf_draws s c) hne
  | _ => exact absurd rfl hne

theorem Effect.soundActive_eq (he : Effect s i t) : t.soundActive = s.soundActive := by
  cases he with
  | skips c _ => exact State.skipIf_soundActive s c
  | _ => rfl

theorem Effect.keys_eq (he : Effect s i t) : t.keys = s.keys := by
  cases he with
  | skips c _ => exact State.skipIf_keys s c
  | _ => rfl

theorem Effect.params_eq (he : Effect s i t) : t.params = s.params := by
  cases he with
  | skips c _ => exact State.skipIf_params s c
  | _ => rfl

theorem Effect.reg_ne (he : Effect s i t) {r : Reg} (hne : t.reg r ≠ s.reg r) : mayWriteReg s.params r i := by
  cases he with
  | registers rs hrs => exact by_contra fun hr => hne (hrs r hr)
  | draws x kk v hi =>
    subst hi
    exact by_contra fun hr => hne (State.reg_setReg_of_ne s.countDraw v hr)
  | sprite x y n rows hi =>
    subst hi
    exact by_contra fun hr => hne (State.reg_setReg_of_ne _ _ hr)
  | skips c _ => exact absurd (State.reg_congr (State.skipIf_regs s c) r) hne
  | _ => exact absurd rfl hne

theorem Effect.pc_ne (he : Effect s i t) (hne : t.pc ≠ s.pc) : isTransfer i = true ∨ isSkip i = true := by
  cases he with
  | skips c hi => exact .inr hi
  | jumps a hi => exact .inl hi
  | calls nnn hi _ => exact .inl (by rw [hi]; rfl)
  | returns a hi => exact .inl (by rw [hi]; rfl)
  | _ => exact absurd rfl hne

/-- `run` changes only into a wait or into a fault that has its cause. -/
theorem Effect.run_ne (he : Effect s i t) (hne : t.run ≠ s.run) :
    (∃ x, i = .ldVxK x ∧ t.run = .awaitingKey x) ∨
      ∃ k addr, FaultCause s i k addr ∧ t = s.raise (s.execFault k i addr) := by
  cases he with
  | waits x hi => exact .inl ⟨x, hi, rfl⟩
  | faults k addr hc => exact .inr ⟨k, addr, hc, rfl⟩
  | skips c _ => exact absurd (State.skipIf_run s c) hne
  | _ => exact absurd rfl hne

end

/-- Settles O47: each clause is the effect lemma of its part. -/
theorem onlyTheNamedInstructionsWriteEachPart : Obligations.OnlyTheNamedInstructionsWriteEachPart := by
  intro i s t h
  have he := exec_effect h
  refine ⟨he.mem_ne, he.idx_ne, he.stack_ne, he.dt_ne, he.st_ne, he.fb_ne, he.draws_ne,
    he.soundActive_eq, he.keys_eq, he.params_eq, fun r hr => ?_, fun hpc => ?_, fun hrun => ?_⟩
  · have hi := he.reg_ne hr
    cases i <;> exact hi
  · have hi := he.pc_ne hpc
    cases i with
    | jp | call | ret | jpV0 => trivial
    | seImm | sneImm | seReg | sneReg | skp | sknp => trivial
    | _ => exact hi.elim nofun nofun
  · rcases he.run_ne hrun with ⟨x, rfl, hx⟩ | ⟨k, addr, hc, rfl⟩
    · exact hx
    · cases hc with
      | overflow nnn _ => exact ⟨_, rfl⟩
      | underflow _ => exact ⟨_, rfl⟩
      | badAddress _ b hb =>
        have hn := accessCount_ne_zero hb
        cases i with
        | drw | ldB | ldStore | ldLoad => exact ⟨_, rfl⟩
        | call | ret => exact ⟨_, rfl⟩
        | _ => exact absurd rfl hn

/-- A block load reaches VF only as `LD VF, [I]` with `BLOCK_COPY_INCLUSIVE` (R117). -/
theorem blockCount_reaches_regF {p : Params} {x : Reg} (h : regF.val < blockCount p x) :
    x = regF ∧ p.blockCopyInclusive = true := by
  have hx := x.isLt
  unfold blockCount at h
  split at h
  case isTrue hp => exact ⟨Fin.ext (by simp at h ⊢; omega), hp⟩
  case isFalse => simp at h; omega

/-- Settles O17: VF is the register 15 of the effect lemma for registers. -/
theorem onlyTheNamedInstructionsWriteVF : Obligations.OnlyTheNamedInstructionsWriteVF := by
  intro i s t h hne
  have hF := (exec_effect h).reg_ne hne
  cases i with
  | ldLoad x =>
    exact blockCount_reaches_regF hF
  | addReg | subReg | subn | shr | shl | drw => trivial
  | ldImm | addImm | rnd | ldVxDT => exact hF.symm
  | ldReg | orReg | andReg | xorReg => exact hF.symm
  | _ => exact hF

end Sys2Proof.Machine
end

section
/-! SUPPORT. The invariant: an effect keeps memory in form and the stack within its depth, and a fault's
record agrees with the state it leaves (R18, R36, R150, R151, R153). -/

namespace Sys2Proof.Machine

theorem State.inv_iff {s : State} :
    s.inv = true ↔ s.mem.wf = true ∧ s.stackOk = true ∧ s.runOk = true := by
  simp [State.inv, and_assoc]

/-! ### The stack within its depth (R18) -/

/-- Fewer entries are within the depth too. -/
theorem State.stackOk_of_length_le {s t : State} (hp : t.params = s.params)
    (hl : t.stack.length ≤ s.stack.length) (h : s.stackOk = true) : t.stackOk = true := by
  unfold State.stackOk at h ⊢
  rw [hp]
  split at h
  case h_1 => rfl
  case h_2 n _ =>
    simp only [Bool.and_eq_true, decide_eq_true_eq] at h ⊢
    exact ⟨h.1, hl.trans h.2⟩

/-- A push onto a stack that is not full stays within the depth (R68). -/
theorem State.stackOk_push {s : State} (a : Word) (hf : s.stackFull = false) (h : s.stackOk = true) :
    (s.push a).stackOk = true := by
  unfold State.stackFull at hf
  unfold State.stackOk at h ⊢
  rw [State.push_params, State.push_stack, List.length_append, List.length_singleton]
  cases hd : s.params.stackDepth with
  | unbounded => rfl
  | bounded n =>
    simp only [hd, Bool.and_eq_true, decide_eq_true_eq, beq_eq_false_iff_ne] at hf h ⊢
    omega

section
variable {s t : State} {i : Instr}

theorem Effect.stackOk (he : Effect s i t) (h : s.stackOk = true) : t.stackOk = true := by
  cases he with
  | calls nnn _ hf => exact State.stackOk_push s.pc hf h
  | returns a _ =>
    have hl : s.stack.dropLast.length ≤ s.stack.length := by simp
    exact State.stackOk_of_length_le (s := s) rfl hl h
  | skips c _ =>
    exact State.stackOk_of_length_le (State.skipIf_params s c) (by rw [State.skipIf_stack]) h
  | _ => exact h

/-! ### Memory in canonical form (R36) -/

theorem Effect.mem_wf (he : Effect s i t) (h : s.mem.wf = true) : t.mem.wf = true := by
  cases he with
  | memory m _ hm => exact hm h
  | skips c _ => rwa [State.skipIf_mem]
  | _ => exact h

end

/-! ### The record of a fault (R150, R151, R153) -/

theorem State.runOk_of_running {s : State} (h : s.run = .running) : s.runOk = true := by
  unfold State.runOk; rw [h]

theorem State.runOk_of_awaiting {s : State} {d : Reg} (h : s.run = .awaitingKey d) : s.runOk = true := by
  unfold State.runOk; rw [h]

/-- A fetch fault's record names pc and the first of pc, pc + 1 above 0xFFF. -/
theorem State.runOk_fetchFault {s : State} (hp : 0xFFF ≤ s.pc.toNat) :
    (s.raise (s.fetchFault (max s.pc.toNat memorySize))).runOk = true := by
  have ha : firstOutOfRange s.pc.toNat 2 = some (max s.pc.toNat memorySize) :=
    (firstOutOfRange_eq _ _).trans (if_neg (by unfold memorySize; omega))
  simp [State.runOk, State.fetchFaultOk, State.fetchFault, ha]

@[simp] theorem State.raise_stackFull (s : State) (f : FaultRecord) :
    (s.raise f).stackFull = s.stackFull := rfl

/-- A fault that has its cause leaves the record `execFaultOk` asks for. -/
theorem FaultCause.execFaultOk {s : State} {i : Instr} {k : FaultKind} {addr : Option Nat}
    (hc : FaultCause s i k addr) (hp : (s.pc - 2).toNat ≤ 0xFFE) :
    (s.raise (s.execFault k i addr)).execFaultOk (s.execFault k i addr) i = true := by
  cases hc with
  | overflow nnn hf => simpa [State.execFaultOk, State.execFault, hf] using hp
  | underflow he => simpa [State.execFaultOk, State.execFault, he] using hp
  | badAddress _ b hb =>
    cases i with
    | drw | ldB | ldStore | ldLoad =>
      simp only [accessCount] at hb
      simpa [State.execFaultOk, State.execFault, hb] using hp
    | _ => exact absurd rfl (accessCount_ne_zero hb)

/-- The effect of a fetched instruction: a wait, a running engine, or a fault in agreement. -/
theorem Effect.runOk {s t : State} {i : Instr} (hs : s.fetches i) (he : Effect s.advance i t) :
    t.runOk = true := by
  obtain ⟨hrun, hpc, hdec⟩ := hs
  by_cases hne : t.run = s.advance.run
  · exact State.runOk_of_running (hne.trans hrun)
  · rcases he.run_ne hne with ⟨x, -, hx⟩ | ⟨k, addr, hc, rfl⟩
    · exact State.runOk_of_awaiting hx
    · have hword : decode (encode i) = .instr i := by rw [encode_of_decode hdec, hdec]
      have hok := hc.execFaultOk (by simpa using hpc)
      simpa [State.runOk, State.execFault, hword] using hok

/-- Settles O45, by the four things a step can do. -/
theorem stepKeepsTheInvariant : Obligations.StepKeepsTheInvariant := by
  intro s hinv
  obtain ⟨hmem, hstack, -⟩ := State.inv_iff.1 hinv
  rcases step_cases s with ⟨-, h⟩ | ⟨-, hp, h⟩ | ⟨hrun, -, -, h⟩ | ⟨i, hf, h⟩
  · exact ⟨s, h, hinv⟩
  · exact ⟨_, h, State.inv_iff.2 ⟨hmem, hstack, State.runOk_fetchFault hp⟩⟩
  · exact ⟨_, h, State.inv_iff.2 ⟨hmem, hstack, State.runOk_of_running hrun⟩⟩
  · obtain ⟨t, ht⟩ := exec_next i s.advance
    have he := exec_effect ht
    exact ⟨t, h.trans ht, State.inv_iff.2 ⟨he.mem_wf hmem, he.stackOk hstack, he.runOk hf⟩⟩

/-! ### Construction (R28, R170) -/

/-- A new engine meets the invariant when `STACK_DEPTH` is none or at least 1. -/
theorem State.construct_inv {p : Params} (h : (State.construct p).stackOk = true) :
    (State.construct p).inv = true :=
  State.inv_iff.2 ⟨Memory.constructed_wf p.font, h, State.runOk_of_running rfl⟩

/-- Settles O44: the depth at reset is 16. -/
theorem resetMeetsTheInvariant : Obligations.ResetMeetsTheInvariant :=
  State.construct_inv (by decide)

/-- What `construct` answers: a new engine with the parameters of the old one, which has drawn from
the random source as often (R29, R163). -/
theorem hostCall_construct_eq {u s : State} {r : Reply} (h : hostCall .construct u = .next (s, r)) :
    s = { State.construct u.params with draws := u.draws } := by
  cases h; rfl

/-- Settles O42: a new engine and one the host constructs again differ in `draws` alone. -/
theorem constructionValues : Obligations.ConstructionValues := by
  intro p s hs
  obtain ⟨n, rfl⟩ : ∃ n, s = { State.construct p with draws := n } := by
    rcases hs with rfl | ⟨u, r, rfl, h⟩
    · exact ⟨0, rfl⟩
    · exact ⟨u.draws, hostCall_construct_eq h⟩
  refine ⟨fun a h => ?_, fun a h _ => ?_, fun r => ?_, rfl, rfl, rfl, rfl, rfl, rfl,
    Grid.cell_clear, fun k => ?_, rfl, rfl⟩
  · exact (Memory.readByte_constructed p.font a).trans (dif_pos h)
  · exact (Memory.readByte_constructed p.font a).trans (dif_neg (by omega))
  · simp [State.reg_eq]
  · simp [State.key_eq]

end Sys2Proof.Machine
end

section
/-! SUPPORT. The sound timer and the sound output as an input no instruction reads (R20, R21): every
operation commutes with a change of the two. -/

namespace Sys2Proof.Machine

/-- The state with other values in the sound timer and the sound output. -/
def State.withSound (s : State) (v : Byte) (b : Bool) : State := { s with st := v, soundActive := b }

@[simp] theorem State.withSound_params (s : State) (v : Byte) (b : Bool) :
    (s.withSound v b).params = s.params := rfl
@[simp] theorem State.withSound_stack (s : State) (v : Byte) (b : Bool) :
    (s.withSound v b).stack = s.stack := rfl
@[simp] theorem State.withSound_stackFull (s : State) (v : Byte) (b : Bool) :
    (s.withSound v b).stackFull = s.stackFull := rfl

theorem State.skipIf_withSound (s : State) (c : Bool) (v : Byte) (b : Bool) :
    (s.withSound v b).skipIf c = (s.skipIf c).withSound v b := by
  cases c <;> rfl

theorem State.writeWithFlag_withSound (s : State) (x : Reg) (res : Byte) (flag : Bool) (v : Byte)
    (b : Bool) :
    (s.withSound v b).writeWithFlag x res flag = (s.writeWithFlag x res flag).withSound v b := by
  unfold State.writeWithFlag
  rw [State.withSound_params]
  cases s.params.vfOrder <;> rfl

theorem State.store_withSound (i : Instr) (a : Nat) (bs : List Byte) (s : State) (v : Byte) (b : Bool) :
    (s.withSound v b).store i a bs = (s.store i a bs).withSound v b := by
  rw [State.store_eq, State.store_eq]
  split <;> rfl

/-- A load commutes when what is done with the bytes does. -/
theorem State.load_withSound {i : Instr} {a n : Nat} (use : State → List Byte → State) {s : State}
    {v : Byte} {b : Bool} (h : ∀ bs, use (s.withSound v b) bs = (use s bs).withSound v b) :
    (s.withSound v b).load i a n (use (s.withSound v b)) = (s.load i a n (use s)).withSound v b := by
  rw [State.load_eq, State.load_eq]
  split
  · exact h _
  · rfl

theorem State.drawRows_withSound (s : State) (v : Byte) (b : Bool) (x y : Reg) (rows : List Byte) :
    (s.withSound v b).drawRows x y rows = (s.drawRows x y rows).withSound v b := rfl

theorem State.setRegs_withSound (s : State) (v : Byte) (b : Bool) (bs : List Byte) :
    (s.withSound v b).setRegs bs = (s.setRegs bs).withSound v b := rfl

theorem execCall_withSound (nnn : Addr) {s t : State} (v : Byte) (b : Bool)
    (h : execCall nnn s = .next t) : execCall nnn (s.withSound v b) = .next (t.withSound v b) := by
  unfold execCall at h ⊢
  rw [State.withSound_stackFull]
  split at h
  case isTrue hf => cases h; rw [if_pos hf]; rfl
  case isFalse hf => cases h; rw [if_neg hf]; rfl

theorem execRet_withSound {s t : State} (v : Byte) (b : Bool) (h : execRet s = .next t) :
    execRet (s.withSound v b) = .next (t.withSound v b) := by
  unfold execRet at h ⊢
  rw [State.withSound_stack]
  cases hs : s.stack.getLast? with
  | none => rw [hs] at h; cases h; rfl
  | some a => rw [hs] at h; cases h; rfl

/-- Every instruction but LD ST, Vx commutes with a change of the sound state. -/
theorem exec_withSound {i : Instr} {s t : State} (v : Byte) (b : Bool) (hi : ∀ x, i ≠ .ldST x)
    (h : exec i s = .next t) : exec i (s.withSound v b) = .next (t.withSound v b) := by
  cases i with
  | ldST x => exact absurd rfl (hi x)
  | call nnn => exact execCall_withSound nnn v b h
  | ret => exact execRet_withSound v b h
  | seImm | sneImm | seReg | sneReg => cases h; exact congrArg _ (State.skipIf_withSound ..)
  | skp | sknp => cases h; exact congrArg _ (State.skipIf_withSound ..)
  | addReg | subReg | shr | subn | shl =>
    cases h; exact congrArg _ (State.writeWithFlag_withSound ..)
  | ldB | ldStore => cases h; exact congrArg _ (State.store_withSound ..)
  | drw x y n =>
    cases h
    exact congrArg _ (State.load_withSound (·.drawRows x y) (s.drawRows_withSound v b x y))
  | ldLoad x =>
    cases h
    exact congrArg _ (State.load_withSound State.setRegs (s.setRegs_withSound v b))
  | _ => cases h; rfl

/-- Settles O48: `exec_withSound` written out. -/
theorem soundStateIsNeverRead : Obligations.SoundStateIsNeverRead :=
  fun _ _ _ v b hi h => exec_withSound v b hi h

end Sys2Proof.Machine
end

section
/-! SUPPORT. Fetch from the one address space: a running step decodes the big-endian word at pc, and a
word that a block store has just put there is no exception (R33, R41, R45, R116). -/

namespace Sys2Proof.Machine

/-- Settles O5: `step_of_instr`, with the word at pc and the advance of pc written out. -/
theorem stepRunsTheDecodedInstruction : Obligations.StepRunsTheDecodedInstruction :=
  fun _ _ hrun hpc hdec => step_of_instr hrun hpc hdec

/-! ### A block store that fits (R116) -/

theorem State.length_firstRegs_blockCount (s : State) (p : Params) (x : Reg) :
    (s.firstRegs (blockCount p x)).length = blockCount p x := by
  rw [State.length_firstRegs, Nat.min_eq_left (blockCount_le p x)]

theorem exec_ldStore_of_fits {s : State} {x : Reg}
    (hfit : s.idx.toNat + blockCount s.params x ≤ memorySize) :
    exec (.ldStore x) s = .next
      { s with mem := s.mem.writeBytes s.idx.toNat (s.firstRegs (blockCount s.params x)) } := by
  have hbytes : s.effectiveAddress 0 + (s.firstRegs (blockCount s.params x)).length ≤ memorySize := by
    rwa [State.length_firstRegs_blockCount]
  exact congrArg Host.Outcome.next ((State.store_eq ..).trans (if_pos (.inr hbytes)))

section
variable {m : Memory} {s : State} {p : Params} {x : Reg} {a : Nat}

/-- Where V0, V1, … are stored from `a` upward, `V[r]` is read back at `a + r`. -/
theorem Memory.readByte_writeBytes_firstRegs {r : Reg} (hm : m.wf = true)
    (hfit : a + blockCount p x ≤ memorySize) (hr : r.val < blockCount p x) :
    (m.writeBytes a (s.firstRegs (blockCount p x))).readByte (a + r.val) = s.reg r := by
  have hlen := s.length_firstRegs_blockCount p x
  rw [Memory.readByte_writeBytes hm (hlen.symm ▸ hfit), if_pos (by omega), Nat.add_sub_cancel_left,
    State.getD_firstRegs, if_pos hr]

/-- The word at the start of stored registers is the one V0 and V1 spell, V0 first (R33). -/
theorem Memory.readWord_writeBytes_firstRegs (hm : m.wf = true)
    (hfit : a + blockCount p x ≤ memorySize) (h2 : 2 ≤ blockCount p x) :
    (m.writeBytes a (s.firstRegs (blockCount p x))).readWord a = wordOfBytes (s.reg 0) (s.reg 1) :=
  congrArg₂ wordOfBytes
    (Memory.readByte_writeBytes_firstRegs (r := 0) hm hfit (Nat.zero_lt_of_lt h2))
    (Memory.readByte_writeBytes_firstRegs (r := 1) hm hfit h2)

end

/-- Settles O28: the first step stores from the new pc upward, and the second fetches what V0 and V1
spell. -/
theorem storedWordIsFetchedNext : Obligations.StoredWordIsFetchedNext := by
  intro s x i hwf hfetch hidx h2 hfit hdec
  obtain ⟨hrun, hpc, hstore⟩ := hfetch
  have hfirst := (step_of_instr hrun hpc hstore).trans (exec_ldStore_of_fits (s := s.advance) hfit)
  have hword := Memory.readWord_writeBytes_firstRegs (s := s) hwf hfit h2
  have hpc' : s.advance.pc.toNat ≤ 0xFFE := by rw [State.advance_pc, ← hidx]; omega
  have hpc4 : s.pc + 4 = s.pc + 2 + 2 := (BitVec.add_assoc s.pc 2 2).symm
  refine ⟨_, hfirst, hpc4 ▸ step_of_instr hrun hpc' ?_⟩
  rw [State.advance_pc, ← hidx]
  exact (congrArg decode hword).trans hdec

end Sys2Proof.Machine
end

section
/-! SUPPORT. The decoder and the encoder as inverses, and the words that are no instruction's (R50,
R51, R52). -/

namespace Sys2Proof

/-! ### Round trip (R50, R51) -/

/-- Decoding the word of a well-formed instruction gives it back, by the per-instruction lemmas. -/
theorem decode_encode {i : Instr} (h : i.wf = true) : decode (encode i) = .instr i := by
  cases i with
  | sys nnn => exact Laws.RoundTrip.sys nnn h
  | cls => exact Laws.RoundTrip.cls h
  | ret => exact Laws.RoundTrip.ret h
  | jp nnn => exact Laws.RoundTrip.jp nnn h
  | call nnn => exact Laws.RoundTrip.call nnn h
  | seImm x kk => exact Laws.RoundTrip.seImm x kk h
  | sneImm x kk => exact Laws.RoundTrip.sneImm x kk h
  | seReg x y => exact Laws.RoundTrip.seReg x y h
  | ldImm x kk => exact Laws.RoundTrip.ldImm x kk h
  | addImm x kk => exact Laws.RoundTrip.addImm x kk h
  | ldReg x y => exact Laws.RoundTrip.ldReg x y h
  | orReg x y => exact Laws.RoundTrip.orReg x y h
  | andReg x y => exact Laws.RoundTrip.andReg x y h
  | xorReg x y => exact Laws.RoundTrip.xorReg x y h
  | addReg x y => exact Laws.RoundTrip.addReg x y h
  | subReg x y => exact Laws.RoundTrip.subReg x y h
  | shr x y => exact Laws.RoundTrip.shr x y h
  | subn x y => exact Laws.RoundTrip.subn x y h
  | shl x y => exact Laws.RoundTrip.shl x y h
  | sneReg x y => exact Laws.RoundTrip.sneReg x y h
  | ldI nnn => exact Laws.RoundTrip.ldI nnn h
  | jpV0 nnn => exact Laws.RoundTrip.jpV0 nnn h
  | rnd x kk => exact Laws.RoundTrip.rnd x kk h
  | drw x y n => exact Laws.RoundTrip.drw x y n h
  | skp x => exact Laws.RoundTrip.skp x h
  | sknp x => exact Laws.RoundTrip.sknp x h
  | ldVxDT x => exact Laws.RoundTrip.ldVxDT x h
  | ldVxK x => exact Laws.RoundTrip.ldVxK x h
  | ldDT x => exact Laws.RoundTrip.ldDT x h
  | ldST x => exact Laws.RoundTrip.ldST x h
  | addI x => exact Laws.RoundTrip.addI x h
  | ldF x => exact Laws.RoundTrip.ldF x h
  | ldB x => exact Laws.RoundTrip.ldB x h
  | ldStore x => exact Laws.RoundTrip.ldStore x h
  | ldLoad x => exact Laws.RoundTrip.ldLoad x h

/-- Settles O1: `decode_encode`, for every instruction. -/
theorem decodeOfEncodeIsTheInstruction : Obligations.DecodeOfEncodeIsTheInstruction :=
  fun _ h => decode_encode h

/-- The decoder answers an instruction exactly at that instruction's word. -/
theorem decode_eq_instr_iff {w : Word} {i : Instr} :
    decode w = .instr i ↔ i.wf = true ∧ encode i = w := by
  constructor
  · exact fun h => ⟨wf_of_decode h, encode_of_decode h⟩
  · rintro ⟨hwf, rfl⟩
    exact decode_encode hwf

/-- Settles O2: by `decode_eq_instr_iff`, a well-formed instruction with the word `w` is what `w`
decodes to. -/
theorem decoderIsTotalAndUnambiguous : Obligations.DecoderIsTotalAndUnambiguous := by
  intro w
  have hdec {j : Instr} (hwf : j.wf = true) (hj : encode j = w) : decode w = .instr j :=
    decode_eq_instr_iff.2 ⟨hwf, hj⟩
  cases h : decode w with
  | instr i =>
    obtain ⟨hwf, henc⟩ := decode_eq_instr_iff.1 h
    exact .inl ⟨i, rfl, hwf, henc, fun j hj hjw => Decoded.instr.inj ((hdec hj hjw).symm.trans h)⟩
  | unknown u =>
    rw [decode_unknown_self h]
    exact .inr ⟨rfl, fun j hj hjw => Decoded.noConfusion ((hdec hj hjw).symm.trans h)⟩

/-! ### The unknown words of each family (R52) -/

theorem decode0_ne_unknown (op u : Word) : decode0 op ≠ .unknown u := by
  unfold decode0
  split
  · exact nofun
  · split <;> exact nofun

theorem decode5_unknown_iff (op : Word) : decode5 op = .unknown op ↔ (fieldN op).toNat ≠ 0x0 := by
  unfold decode5
  split
  case h_1 h => simp [h]
  case h_2 h => exact iff_of_true rfl h

theorem decode8_unknown_iff (op : Word) :
    decode8 op = .unknown op ↔ (fieldN op).toNat ∈ [0x8, 0x9, 0xA, 0xB, 0xC, 0xD, 0xF] := by
  unfold decode8
  split
  case h_10 =>
    have := (fieldN op).isLt
    simp only [imp_false, true_iff, List.mem_cons, List.not_mem_nil, or_false] at *
    omega
  all_goals simp [*]

theorem decode9_unknown_iff (op : Word) : decode9 op = .unknown op ↔ (fieldN op).toNat ≠ 0x0 := by
  unfold decode9
  split
  case h_1 h => simp [h]
  case h_2 h => exact iff_of_true rfl h

theorem decodeE_unknown_iff (op : Word) :
    decodeE op = .unknown op ↔ (fieldKK op).toNat ∉ [0x9E, 0xA1] := by
  unfold decodeE
  split
  case h_3 h9E hA1 => exact iff_of_true rfl (by simpa using ⟨h9E, hA1⟩)
  all_goals simp [*]

theorem decodeF_unknown_iff (op : Word) :
    decodeF op = .unknown op ↔
      (fieldKK op).toNat ∉ [0x07, 0x0A, 0x15, 0x18, 0x1E, 0x29, 0x33, 0x55, 0x65] := by
  unfold decodeF
  split
  case h_10 h07 h0A h15 h18 h1E h29 h33 h55 h65 =>
    exact iff_of_true rfl (by simpa using ⟨h07, h0A, h15, h18, h1E, h29, h33, h55, h65⟩)
  all_goals simp [*]

/-- A word is unknown in five of the families only, each with its own list. -/
theorem decode_unknown_iff (op : Word) : decode op = .unknown op ↔
    ((fieldT op).toNat = 0x5 ∧ (fieldN op).toNat ≠ 0x0) ∨
    ((fieldT op).toNat = 0x8 ∧ (fieldN op).toNat ∈ [0x8, 0x9, 0xA, 0xB, 0xC, 0xD, 0xF]) ∨
    ((fieldT op).toNat = 0x9 ∧ (fieldN op).toNat ≠ 0x0) ∨
    ((fieldT op).toNat = 0xE ∧ (fieldKK op).toNat ∉ [0x9E, 0xA1]) ∨
    ((fieldT op).toNat = 0xF ∧
      (fieldKK op).toNat ∉ [0x07, 0x0A, 0x15, 0x18, 0x1E, 0x29, 0x33, 0x55, 0x65]) := by
  unfold decode
  split
  case h_1 h => simp [h, decode0_ne_unknown]
  case h_6 h => simp [h, decode5_unknown_iff]
  case h_9 h => simp [h, decode8_unknown_iff]
  case h_10 h => simp [h, decode9_unknown_iff]
  case h_15 h => simp [h, decodeE_unknown_iff]
  case h_16 h0 h1 h2 h3 h4 h5 h6 h7 h8 h9 hA hB hC hD hE =>
    have h := fieldT_eq_F h0 h1 h2 h3 h4 h5 h6 h7 h8 h9 hA hB hC hD hE
    simp [h, decodeF_unknown_iff]
  all_goals simp [*]

/-- Settles O4: R49's fields and R50's map, computed at nine words. -/
theorem writtenWordsDecodeAsListed : Obligations.WrittenWordsDecodeAsListed := by
  unfold Obligations.WrittenWordsDecodeAsListed
  decide

end Sys2Proof
end

section
/-! SUPPORT. What a call of `step()` answers, the reply included, for each run state and each fetched
word (R45, R46), and the statements that say it. -/

namespace Sys2Proof.Machine

section
variable {s t : State}

theorem stepResult_of_instr_faulted {i : Instr} {f : FaultRecord} (hs : s.fetches i)
    (ht : t.run = .faulted f) : stepResult s t = .faulted f := by
  obtain ⟨hrun, hpc, hdec⟩ := hs
  rw [stepResult, hrun, State.fetch_eq, if_pos hpc]
  simp only [hdec, ht]

theorem stepResult_of_instr_executed {i : Instr} (hs : s.fetches i) (ht : ∀ f, t.run ≠ .faulted f) :
    stepResult s t = .executed (s.mem.readWord s.pc.toNat) i := by
  obtain ⟨hrun, hpc, hdec⟩ := hs
  rw [stepResult, hrun, State.fetch_eq, if_pos hpc]
  cases h : t.run with
  | faulted f => exact absurd h (ht f)
  | running | awaitingKey => simp only [hdec]

theorem hostCall_step_of_faulted {f : FaultRecord} (h : s.run = .faulted f) :
    hostCall .step s = .next (s, .stepped (.halted f)) := by
  rw [hostCall_step (step_of_faulted h), stepResult, h]

theorem hostCall_step_of_awaiting {d : Reg} (h : s.run = .awaitingKey d) :
    hostCall .step s = .next (s, .stepped .suspended) := by
  rw [hostCall_step (step_of_awaiting h), stepResult, h]

theorem hostCall_step_of_fetch_fault (h : s.run = .running) (hp : 0xFFF ≤ s.pc.toNat) :
    hostCall .step s = .next (s.raise (s.fetchFault (max s.pc.toNat memorySize)),
      .stepped (.faulted (s.fetchFault (max s.pc.toNat memorySize)))) := by
  rw [hostCall_step (step_of_fetch_fault h hp), stepResult, h, State.fetch_eq, if_neg (by omega)]

theorem hostCall_step_of_unknown {u : Word} (h : s.run = .running) (hp : s.pc.toNat ≤ 0xFFE)
    (hd : decode (s.mem.readWord s.pc.toNat) = .unknown u) :
    hostCall .step s = .next (s.advance, .stepped (.unknown u)) := by
  rw [hostCall_step (step_of_unknown h hp hd), stepResult, h, State.fetch_eq, if_pos hp]
  simp only [hd]

end

/-- The word that the two bytes at `a` spell, high byte first, is the one read there (R33). -/
theorem Memory.readWord_eq_of_toNat {m : Memory} {a : Nat} {w : Word}
    (h : w.toNat = 0x100 * (m.readByte a).toNat + (m.readByte (a + 1)).toNat) : m.readWord a = w :=
  BitVec.eq_of_toNat_eq ((readWord_toNat m a).trans h.symm)

/-- Settles O6: one reply lemma per run state and fetched word. -/
theorem stepCycleAndItsResults : Obligations.StepCycleAndItsResults := by
  intro s
  refine ⟨fun f h => hostCall_step_of_faulted h, fun d h => hostCall_step_of_awaiting h, ?_, ?_, ?_⟩
  · rintro f hrun hp rfl
    exact hostCall_step_of_fetch_fault hrun hp
  · intro w hrun hp hw hdec
    obtain rfl := Memory.readWord_eq_of_toNat hw
    exact hostCall_step_of_unknown hrun hp hdec
  · intro w i hrun hp hw hdec
    obtain rfl := Memory.readWord_eq_of_toNat hw
    obtain ⟨t, ht⟩ := exec_next i s.advance
    have hs : s.fetches i := ⟨hrun, hp, hdec⟩
    exact ⟨t, _, ht, hostCall_step ((step_of_instr hrun hp hdec).trans ht),
      fun f hf => stepResult_of_instr_faulted hs hf, fun hf => stepResult_of_instr_executed hs hf⟩

/-- Settles O3: `decode_unknown_iff` with the fields as parts of the word's number, and the reply
lemma for an unknown word. -/
theorem unknownWordsAreTheListedAndAreSkipped : Obligations.UnknownWordsAreTheListedAndAreSkipped := by
  constructor
  · intro w
    rw [← fieldT_toNat, ← fieldN_toNat, ← fieldKK_toNat]
    exact decode_unknown_iff w
  · rintro s w hrun hp rfl hdec
    exact hostCall_step_of_unknown hrun hp hdec

end Sys2Proof.Machine
end

section
/-! SUPPORT. Control transfer: the rule of a skip and of a jump for any instruction that ends in one,
the cases of CALL and RET, and the statements about them (R65 to R74, R76). -/

namespace Sys2Proof.Machine

/-! ### What an instruction that ends in a skip or a jump does -/

/-- A well-formed instruction's word decodes back, so its number is all there is to show. -/
theorem hasWord_of_wf {i : Instr} {w : Nat} (hwf : i.wf = true) (hw : (encode i).toNat = w) :
    hasWord i w := ⟨hw, decode_encode hwf⟩

theorem writesWord_of_setPc {i : Instr} {s : State} {a : Word} {v : Nat}
    (h : exec i s = .next (s.setPc a)) (ha : a.toNat = v) : writesWord i s .pc State.pc v :=
  ⟨_, h, ha, changesOnly_setPc s a⟩

theorem skipsNextWhen_of_skipIf {i : Instr} {s : State} {c : Bool} {cond : Prop}
    (h : exec i s = .next (s.skipIf c)) (hc : c = true ↔ cond) : skipsNextWhen i s cond :=
  ⟨_, h, fun hcond => (s.skipIf_pc c).trans (if_pos (hc.2 hcond)),
    fun hcond => (s.skipIf_pc c).trans (if_neg (mt hc.1 hcond)), changesOnly_skipIf s c⟩

/-- Fetch and a skip together: pc moves by one word or by two (R74). -/
theorem State.pc_skipIf_advance (s : State) (c : Bool) :
    (s.advance.skipIf c).pc = s.pc + 2 ∨ (s.advance.skipIf c).pc = s.pc + 4 := by
  cases c
  · exact .inl rfl
  · exact .inr (BitVec.add_assoc s.pc 2 2)

/-- JP V0's target fits in 16 bits: `0xFFF + 0xFF` is the greatest sum (R73). -/
theorem zextAddr_add_zextByte_toNat (a : Addr) (v : Byte) :
    (zextAddr a + zextByte v).toNat = a.toNat + v.toNat := by
  have ha := a.isLt
  have hv := v.isLt
  rw [BitVec.toNat_add, zextAddr_toNat, zextByte_toNat]
  omega

/-- Settles O18: SYS answers the state it is given, and the jumps are `setPc`. -/
theorem sysAndJumps : Obligations.SysAndJumps := by
  intro nnn s
  refine ⟨fun hcls hret => ?_, rfl, ?_, ?_, ?_, ?_⟩
  · have hwf : (Instr.sys nnn).wf = true :=
      Bool.and_eq_true_iff.2 ⟨bne_iff_ne.2 hcls, bne_iff_ne.2 hret⟩
    exact hasWord_of_wf hwf ((layoutA_toNat 0x0 nnn).trans (Nat.zero_add _))
  · exact hasWord_of_wf rfl (layoutA_toNat 0x1 nnn)
  · exact writesWord_of_setPc rfl (zextAddr_toNat nnn)
  · exact hasWord_of_wf rfl (layoutA_toNat 0xB nnn)
  · exact writesWord_of_setPc rfl (zextAddr_add_zextByte_toNat nnn (s.reg 0))

/-- Settles O19: each of the four is `skipIf` at its comparison. -/
theorem registerSkips : Obligations.RegisterSkips := by
  intro x y kk s
  refine ⟨?_, ?_, ?_, ?_, ?_, ?_, ?_, ?_⟩
  · exact hasWord_of_wf rfl (layoutXK_toNat 0x3 x kk)
  · exact skipsNextWhen_of_skipIf rfl decide_eq_true_iff
  · exact hasWord_of_wf rfl (layoutXK_toNat 0x4 x kk)
  · exact skipsNextWhen_of_skipIf rfl decide_eq_true_iff
  · exact hasWord_of_wf rfl (layoutXYN_toNat 0x5 x y 0x0)
  · exact skipsNextWhen_of_skipIf rfl decide_eq_true_iff
  · exact hasWord_of_wf rfl (layoutXYN_toNat 0x9 x y 0x0)
  · exact skipsNextWhen_of_skipIf rfl decide_eq_true_iff

/-! ### CALL and RET (R66, R68) -/

theorem State.stackFull_iff (s : State) :
    s.stackFull = true ↔ s.params.stackDepth = .bounded s.stack.length := by
  unfold State.stackFull
  cases s.params.stackDepth with
  | unbounded => exact iff_of_false nofun nofun
  | bounded n =>
    simp only [beq_iff_eq, StackDepth.bounded.injEq]
    exact eq_comm

theorem exec_call_of_full (nnn : Addr) {s : State} (h : s.stackFull = true) :
    exec (.call nnn) s = .next (s.faultedBy .stackOverflow (.call nnn) none) :=
  congrArg Host.Outcome.next (if_pos h)

theorem exec_call_of_not_full (nnn : Addr) {s : State} (h : ¬s.stackFull = true) :
    exec (.call nnn) s = .next { s with stack := s.stack ++ [s.pc], pc := zextAddr nnn } :=
  congrArg Host.Outcome.next (if_neg h)

theorem exec_ret_of_empty {s : State} (h : s.stack = []) :
    exec .ret s = .next (s.faultedBy .stackUnderflow .ret none) := by
  show execRet s = _
  unfold execRet
  rw [h]
  rfl

theorem exec_ret_of_concat {s : State} {below : List Word} {a : Word} (h : s.stack = below ++ [a]) :
    exec .ret s = .next { s with stack := below, pc := a } := by
  show execRet s = _
  unfold execRet State.dropTop
  rw [h, List.getLast?_concat, List.dropLast_concat]
  rfl

theorem changesOnly_stack_pc (s : State) (l : List Word) (a : Word) :
    changesOnly s { s with stack := l, pc := a } fun p => p = .stack ∨ p = .pc := by
  intro p hp
  cases p with
  | stack => exact absurd (.inl rfl) hp
  | pc => exact absurd (.inr rfl) hp
  | _ => rfl

/-- Settles O20: a stack at its depth, or not. -/
theorem callPushesOrOverflows : Obligations.CallPushesOrOverflows := by
  intro nnn s
  refine ⟨hasWord_of_wf rfl (layoutA_toNat 0x2 nnn), fun hdepth => ?_, fun hdepth => ?_⟩
  · have hcall := exec_call_of_not_full nnn (mt s.stackFull_iff.1 hdepth)
    exact ⟨_, hcall, rfl, zextAddr_toNat nnn, changesOnly_stack_pc s _ _⟩
  · exact exec_call_of_full nnn (s.stackFull_iff.2 hdepth)

/-- Settles O21: a stack with a last entry, or an empty one. -/
theorem retPopsOrUnderflows : Obligations.RetPopsOrUnderflows := by
  intro s
  refine ⟨hasWord_of_wf rfl rfl, fun below a hstack => ?_, exec_ret_of_empty⟩
  exact ⟨_, exec_ret_of_concat hstack, rfl, rfl, changesOnly_stack_pc s below a⟩

/-- A CALL that leaves a running engine has pushed the return address (R68). -/
theorem stack_of_exec_call {nnn : Addr} {s t : State} (h : exec (.call nnn) s = .next t)
    (ht : t.run = .running) : t.stack = s.stack ++ [s.pc] := by
  by_cases hfull : s.stackFull = true
  · rw [exec_call_of_full nnn hfull] at h
    cases h
    exact nomatch ht
  · rw [exec_call_of_not_full nnn hfull] at h
    cases h
    rfl

/-- Settles O22: the entry RET pops is the one CALL pushed. -/
theorem retReturnsToAfterTheCall : Obligations.RetReturnsToAfterTheCall := by
  intro nnn s t u hcall hrun hs hu
  have hstack := hu.trans (stack_of_exec_call hcall (hrun.trans hs))
  exact ⟨_, exec_ret_of_concat hstack, rfl, rfl, rfl⟩

/-! ### pc over one step (R74) -/

/-- Settles O23: fetch advances pc by 2, and of the effects only a transfer's and a skip's move it. -/
theorem pcAdvancesByTwoButForTransfers : Obligations.PcAdvancesByTwoButForTransfers := by
  rintro s t i ⟨hrun, hpc, hdec⟩ hstep
  have hexec : exec i s.advance = .next t := (step_of_instr hrun hpc hdec).symm.trans hstep
  cases i with
  | jp | call | ret | jpV0 => trivial
  | seImm | sneImm | seReg | sneReg | skp | sknp => cases hexec; exact s.pc_skipIf_advance _
  | _ => exact by_contra fun hne => ((exec_effect hexec).pc_ne hne).elim nofun nofun

end Sys2Proof.Machine
end

section
/-! SUPPORT. The register and ALU instructions: the rule of a write to one register and of a write of
a result with its flag, for any instruction that ends in one; the flags as numbers; and the statements
about them (R77 to R91). -/

namespace Sys2Proof.Machine

/-! ### What an instruction that ends in a register write does -/

theorem writesRegister_of_setReg {i : Instr} {s : State} {x : Reg} {v : Byte}
    (h : exec i s = .next (s.setReg x v)) : writesRegister i s x v :=
  ⟨_, h, s.reg_setReg_self x v, changesOnly_setReg s x v⟩

/-- The result goes to V[x] and the flag to VF; where the two are one register, `VF_ORDER` says which
of them stays (R78). -/
theorem writesResultAndFlag_of_writeWithFlag {i : Instr} {s : State} {x : Reg} {v : Byte} {b : Bool}
    {res flag : Nat} (h : exec i s = .next (s.writeWithFlag x v b)) (hres : v.toNat = res)
    (hflag : (flagByte b).toNat = flag) : writesResultAndFlag i s x res flag := by
  subst hres hflag
  refine ⟨_, h, fun hx => ⟨?_, ?_⟩, fun _ horder => ?_, fun hx horder => ?_,
    changesOnly_writeWithFlag s x v b⟩
  · rw [State.reg_writeWithFlag, if_neg hx, if_pos rfl]
  · rw [State.reg_writeWithFlag, if_pos rfl, if_neg fun ⟨hxF, _⟩ => hx hxF]
  · rw [State.reg_writeWithFlag, if_pos rfl, if_neg fun ⟨_, hlast⟩ => by simp [horder] at hlast]
  · rw [State.reg_writeWithFlag, if_pos rfl, if_pos ⟨hx, horder⟩]

/-! ### The flags as numbers (R77) -/

theorem flagByte_decide_toNat (p : Prop) [Decidable p] :
    (flagByte (decide p)).toNat = if p then 1 else 0 := by
  by_cases h : p <;> simp [flagByte, h]

theorem shiftRightFlag_toNat (v : Byte) : (flagByte (shiftRightFlag v)).toNat = v.toNat % 2 := by
  rw [shiftRightFlag_eq, flagByte_decide_toNat]
  split <;> omega

/-- Twice a byte exceeds 255 exactly when its bit 7 is set (R90). -/
theorem shiftLeftFlag_toNat (v : Byte) : (flagByte (shiftLeftFlag v)).toNat = v.toNat / 128 := by
  have hv := v.isLt
  rw [shiftLeftFlag, flagByte_decide_toNat, wideDouble]
  split <;> omega

/-! ### The loads and the instructions without a flag (R79 to R85) -/

/-- Settles O10: both loads are one `setReg`. -/
theorem loadsWriteOneRegister : Obligations.LoadsWriteOneRegister := by
  intro x y kk s
  refine ⟨?_, ?_, ?_, ?_⟩
  · exact hasWord_of_wf rfl (layoutXK_toNat 0x6 x kk)
  · exact writesRegister_of_setReg rfl
  · exact hasWord_of_wf rfl (layoutXYN_toNat 0x8 x y 0x0)
  · exact writesRegister_of_setReg rfl

/-- A word of the register to register group as R50 writes it, the sub-operation in front. -/
theorem layout8_toNat (x y : Reg) (n : Nibble) :
    (layoutXYN 0x8 x y n).toNat = 0x8000 + n.toNat + 0x100 * x.val + 0x10 * y.val := by
  have hfamily : (0x8 : Nibble).toNat = 8 := rfl
  rw [layoutXYN_toNat, hfamily]
  omega

/-- Settles O11: each of the three is one `setReg` of the bitwise operation. -/
theorem logicWritesOneRegister : Obligations.LogicWritesOneRegister := by
  intro x y s
  refine ⟨?_, ?_, ?_, ?_, ?_, ?_⟩
  · exact hasWord_of_wf rfl (layout8_toNat x y 0x1)
  · exact hasWord_of_wf rfl (layout8_toNat x y 0x2)
  · exact hasWord_of_wf rfl (layout8_toNat x y 0x3)
  · exact ⟨_, writesRegister_of_setReg rfl, fun _ _ => BitVec.getLsbD_or⟩
  · exact ⟨_, writesRegister_of_setReg rfl, fun _ _ => BitVec.getLsbD_and⟩
  · exact ⟨_, writesRegister_of_setReg rfl, fun _ _ => BitVec.getLsbD_xor⟩

/-- Settles O12: one `setReg` of the sum as a byte. -/
theorem addImmediateWrapsWithoutFlag : Obligations.AddImmediateWrapsWithoutFlag := by
  intro x kk s
  exact ⟨hasWord_of_wf rfl (layoutXK_toNat 0x7 x kk), _, writesRegister_of_setReg rfl,
    sumByte_toNat (s.reg x) kk⟩

/-! ### The flag instructions (R78, R86 to R90) -/

/-- Settles O13: `writeWithFlag` at the sum and its carry. -/
theorem addSetsCarry : Obligations.AddSetsCarry := by
  intro x y s
  exact ⟨hasWord_of_wf rfl (layout8_toNat x y 0x4),
    writesResultAndFlag_of_writeWithFlag rfl (sumByte_toNat _ _) (flagByte_decide_toNat _)⟩

/-- Settles O14: `writeWithFlag` at the difference and the strict comparison, in both orders. -/
theorem subtractionsWrapAndCompareStrictly : Obligations.SubtractionsWrapAndCompareStrictly := by
  intro x y s
  refine ⟨?_, ?_, ?_, ?_⟩
  · exact hasWord_of_wf rfl (layout8_toNat x y 0x5)
  · exact hasWord_of_wf rfl (layout8_toNat x y 0x7)
  · exact writesResultAndFlag_of_writeWithFlag rfl (differenceByte_toNat _ _) (flagByte_decide_toNat _)
  · exact writesResultAndFlag_of_writeWithFlag rfl (differenceByte_toNat _ _) (flagByte_decide_toNat _)

/-- Settles O15: `writeWithFlag` at V[x] shifted and the bit shifted out; y is not read. -/
theorem shiftsMoveOneBitIntoVF : Obligations.ShiftsMoveOneBitIntoVF := by
  intro x y s
  refine ⟨?_, ?_, ?_, ?_⟩
  · exact hasWord_of_wf rfl (layout8_toNat x y 0x6)
  · exact hasWord_of_wf rfl (layout8_toNat x y 0xE)
  · exact writesResultAndFlag_of_writeWithFlag rfl (shiftedRight_toNat _) (shiftRightFlag_toNat _)
  · exact writesResultAndFlag_of_writeWithFlag rfl (shiftedLeft_toNat _) (shiftLeftFlag_toNat _)

/-! ### RND (R91) -/

theorem changesOnly_countDraw_setReg (s : State) (x : Reg) (v : Byte) :
    changesOnly s (s.countDraw.setReg x v) fun p => p = .reg x ∨ p = .draws := by
  intro p hp
  cases p with
  | reg r => exact State.reg_setReg_of_ne s.countDraw v fun e => hp (.inl (by rw [e]))
  | draws => exact absurd (.inr rfl) hp
  | _ => rfl

/-- Settles O16: RND counts the draw and writes it masked, whatever byte it is. -/
theorem randomByteIsMasked : Obligations.RandomByteIsMasked := by
  intro x kk s
  refine ⟨hasWord_of_wf rfl (layoutXK_toNat 0xC x kk), _, rfl, fun b _ => ?_, rfl,
    changesOnly_countDraw_setReg s x _⟩
  rw [State.reg_setReg_self]
  exact BitVec.getLsbD_and

end Sys2Proof.Machine
end

section
/-! SUPPORT. The index register and memory instructions: the rule of a write to I, of a store and of a
load of any number of bytes at I, each with its fault, and the statements about them (R110 to R117). -/

namespace Sys2Proof.Machine

/-- A word of family F as R50 writes it, the sub-opcode byte in front. -/
theorem layoutF_toNat (x : Reg) (kk : Byte) :
    (layoutXK 0xF x kk).toNat = 0xF000 + kk.toNat + 0x100 * x.val := by
  have hfamily : (0xF : Nibble).toNat = 15 := rfl
  rw [layoutXK_toNat, hfamily]
  omega

/-! ### What an instruction that ends in a write to I does -/

theorem changesOnly_idx (s : State) (v : Word) : changesOnly s { s with idx := v } fun p => p = .idx := by
  intro p hp
  cases p with
  | idx => exact absurd rfl hp
  | _ => rfl

theorem writesWord_of_idx {i : Instr} {s : State} {v : Word} {n : Nat}
    (h : exec i s = .next { s with idx := v }) (hv : v.toNat = n) : writesWord i s .idx State.idx n :=
  ⟨_, h, hv, changesOnly_idx s v⟩

theorem idx_add_zextByte_toNat (a : Word) (v : Byte) :
    (a + zextByte v).toNat = (a.toNat + v.toNat) % 2 ^ 16 := by
  rw [BitVec.toNat_add, zextByte_toNat]

/-- Settles O24: each of the three is one write to I. -/
theorem indexRegisterResults : Obligations.IndexRegisterResults := by
  intro nnn x s
  refine ⟨?_, ?_, ?_, ?_, ?_, ?_⟩
  · exact hasWord_of_wf rfl (layoutA_toNat 0xA nnn)
  · exact writesWord_of_idx rfl (zextAddr_toNat nnn)
  · exact hasWord_of_wf rfl (layoutF_toNat x 0x1E)
  · exact writesWord_of_idx rfl (idx_add_zextByte_toNat s.idx (s.reg x))
  · exact hasWord_of_wf rfl (layoutF_toNat x 0x29)
  · exact writesWord_of_idx rfl (glyphAddress_toNat (s.reg x))

/-! ### An access of n bytes at I: it fits, or it is a fault (R36, R111) -/

/-- The n bytes from I upward are all in memory; of no bytes this holds wherever I points. -/
def State.accessFits (s : State) (n : Nat) : Prop := n = 0 ∨ s.idx.toNat + n ≤ memorySize

/-- The rules' spelling of an access that fits: the address of its last byte is at most 0xFFF. -/
theorem State.accessFits_iff {s : State} {n : Nat} :
    s.accessFits n ↔ n = 0 ∨ s.idx.toNat + n - 1 ≤ 0xFFF := by
  unfold State.accessFits memorySize
  omega

theorem State.not_accessFits {s : State} {n : Nat} (hn : 0 < n) (h : 0xFFF < s.idx.toNat + n - 1) :
    ¬s.accessFits n := by
  rw [State.accessFits_iff]
  omega

theorem State.accessFits.le_memorySize {s : State} {n j : Nat} (h : s.accessFits n) (hj : j < n) :
    s.idx.toNat + n ≤ memorySize :=
  h.resolve_left (Nat.ne_zero_of_lt hj)

section
variable {i : Instr} {s : State} {bs : List Byte} {n : Nat} {use : List Byte → State}

theorem exec_of_store_fits (h : exec i s = .next (s.store i (s.effectiveAddress 0) bs))
    (hn : bs.length = n) (hfit : s.accessFits n) :
    exec i s = .next { s with mem := s.mem.writeBytes s.idx.toNat bs } := by
  subst hn
  exact h.trans (congrArg _ ((State.store_eq ..).trans (if_pos hfit)))

theorem exec_of_store_faults (h : exec i s = .next (s.store i (s.effectiveAddress 0) bs))
    (hn : bs.length = n) (hbad : ¬s.accessFits n) :
    exec i s = .next (s.faultedBy .outOfRangeAddress i (some (max s.idx.toNat 0x1000))) := by
  subst hn
  exact h.trans (congrArg _ ((State.store_eq ..).trans (if_neg hbad)))

theorem exec_of_load_fits (h : exec i s = .next (s.load i (s.effectiveAddress 0) n use))
    (hfit : s.accessFits n) : exec i s = .next (use (s.mem.readBytes s.idx.toNat n)) :=
  h.trans (congrArg _ ((State.load_eq ..).trans (if_pos hfit)))

theorem exec_of_load_faults (h : exec i s = .next (s.load i (s.effectiveAddress 0) n use))
    (hbad : ¬s.accessFits n) :
    exec i s = .next (s.faultedBy .outOfRangeAddress i (some (max s.idx.toNat 0x1000))) :=
  h.trans (congrArg _ ((State.load_eq ..).trans (if_neg hbad)))

/-- A store that fits changes the bytes it stores; a store of no bytes changes nothing. -/
theorem changesOnly_store (hm : s.mem.wf = true) (hn : bs.length = n) (hfit : s.accessFits n) :
    changesOnly s { s with mem := s.mem.writeBytes s.idx.toNat bs } fun p =>
      ∃ j, j < n ∧ p = .byte (s.effectiveAddress j) := by
  subst hn
  rcases hfit with hnil | hfit
  · rw [List.eq_nil_of_length_eq_zero hnil]
    exact changesOnly_refl s _
  · exact changesOnly_writeBytes hm hfit

end

/-! ### LD B (R115) -/

/-- The j-th of the stored bytes is read back at the j-th address. -/
theorem Memory.readByte_writeBytes_add {m : Memory} {a j : Nat} {bs : List Byte} (hm : m.wf = true)
    (hfit : a + bs.length ≤ memorySize) (hj : j < bs.length) :
    (m.writeBytes a bs).readByte (a + j) = bs.getD j 0 := by
  rw [Memory.readByte_writeBytes hm hfit, if_pos (by omega), Nat.add_sub_cancel_left]

/-- A digit of a byte fits in a byte. -/
theorem digit_toNat {v : Byte} {d : Nat} (h : d ≤ v.toNat) : (BitVec.ofNat 8 d).toNat = d :=
  (BitVec.toNat_ofNat d 8).trans (Nat.mod_eq_of_lt (h.trans_lt v.isLt))

/-- Settles O25: an access of three bytes, each read back as its digit. -/
theorem bcdStoresThreeDigits : Obligations.BcdStoresThreeDigits := by
  intro x s hm
  refine ⟨hasWord_of_wf rfl (layoutF_toNat x 0x33), fun hlast => ?_, fun hbad => ?_⟩
  · have hfit : s.accessFits 3 := State.accessFits_iff.2 (.inr hlast)
    have hbyte : ∀ j < 3, (s.mem.writeBytes s.idx.toNat (bcdDigits (s.reg x))).readByte
        (s.idx.toNat + j) = (bcdDigits (s.reg x)).getD j 0 :=
      fun j hj => Memory.readByte_writeBytes_add hm (hfit.le_memorySize hj) hj
    refine ⟨_, exec_of_store_fits rfl rfl hfit, ?_, ?_, ?_, changesOnly_store hm rfl hfit⟩
    · exact (congrArg BitVec.toNat (hbyte 0 (by decide))).trans (digit_toNat (Nat.div_le_self ..))
    · exact (congrArg BitVec.toNat (hbyte 1 (by decide))).trans
        (digit_toNat ((Nat.mod_le ..).trans (Nat.div_le_self ..)))
    · exact (congrArg BitVec.toNat (hbyte 2 (by decide))).trans (digit_toNat (Nat.mod_le ..))
  · exact exec_of_store_faults (n := 3) rfl rfl (State.not_accessFits (by decide) hbad)

/-! ### The block transfers (R116, R117) -/

theorem eq_blockCount {p : Params} {x : Reg} {k : Nat} (hincl : p.blockCopyInclusive = true → k = x.val + 1)
    (hexcl : p.blockCopyInclusive = false → k = x.val) : k = blockCount p x := by
  unfold blockCount
  split
  case isTrue h => exact hincl h
  case isFalse h => exact hexcl (Bool.eq_false_iff.2 h)

/-- Settles O26: a store of `blockCount` bytes, and V[r] read back at I + r. -/
theorem blockStoreWritesTheFirstRegisters : Obligations.BlockStoreWritesTheFirstRegisters := by
  intro x s k hm hincl hexcl
  obtain rfl := eq_blockCount hincl hexcl
  have hlen := s.length_firstRegs_blockCount s.params x
  refine ⟨hasWord_of_wf rfl (layoutF_toNat x 0x55), fun hlast => ?_, fun hk hbad => ?_⟩
  · have hfit := State.accessFits_iff.2 hlast
    refine ⟨_, exec_of_store_fits rfl hlen hfit, fun r hr => ?_, changesOnly_store hm hlen hfit⟩
    exact Memory.readByte_writeBytes_firstRegs hm (hfit.le_memorySize hr) hr
  · exact exec_of_store_faults rfl hlen (State.not_accessFits hk hbad)

/-- The r-th of n bytes read from memory is in V[r] (R117). -/
theorem State.reg_setRegs_readBytes (s : State) (m : Memory) (a : Nat) {n : Nat} {r : Reg} (hr : r.val < n) :
    (s.setRegs (m.readBytes a n)).reg r = m.readByte (a + r.val) := by
  rw [State.reg_setRegs, Memory.getD_readBytes, if_pos hr]

/-- Settles O27: a load of `blockCount` bytes into the registers below that count. -/
theorem blockLoadReadsTheFirstRegisters : Obligations.BlockLoadReadsTheFirstRegisters := by
  intro x s k hincl hexcl
  obtain rfl := eq_blockCount hincl hexcl
  refine ⟨hasWord_of_wf rfl (layoutF_toNat x 0x65), fun hlast => ?_, fun hk hbad => ?_⟩
  · have hframe := changesOnly_setRegs s (s.mem.readBytes s.idx.toNat (blockCount s.params x))
    rw [Memory.length_readBytes] at hframe
    exact ⟨_, exec_of_load_fits rfl (State.accessFits_iff.2 hlast),
      fun r hr => s.reg_setRegs_readBytes s.mem s.idx.toNat hr, hframe⟩
  · exact exec_of_load_faults rfl (State.not_accessFits hk hbad)

end Sys2Proof.Machine
end

section
/-! SUPPORT. The framebuffer instructions: that a draw does not depend on the order of its pixels, what
a draw of the sprite at I does to each cell and to VF, and the statements about CLS and DRW (R120 to
R125). -/

namespace Sys2Proof.Machine

/-! ### CLS (R124) -/

theorem changesOnly_framebuffer (s : State) (g : Grid) :
    changesOnly s { s with fb := g } fun p => ∃ c r, p = .cell c r := by
  intro p hp
  cases p with
  | cell c r => exact absurd ⟨c, r, rfl⟩ hp
  | _ => rfl

/-- Settles O29: the cleared framebuffer is off at every cell. -/
theorem clsClearsEveryCell : Obligations.ClsClearsEveryCell := by
  intro s
  exact ⟨hasWord_of_wf rfl rfl, _, rfl, Grid.cell_clear, changesOnly_framebuffer s Grid.clear⟩

/-! ### The order of the pixels (R122) -/

section
variable {ps qs : List (Col × Row)}

theorem Grid.any_cell_iff (g : Grid) :
    (ps.any fun p => g.cell p.1 p.2) = true ↔ ∃ c r, (c, r) ∈ ps ∧ g.cell c r = true := by
  rw [List.any_eq_true, Prod.exists]

theorem Grid.draw_collide_iff (hps : ps.Nodup) (g : Grid) :
    (g.draw ps).2 = true ↔ ∃ c r, (c, r) ∈ ps ∧ g.cell c r = true := by
  rw [Grid.draw_collide hps, Grid.any_cell_iff]

/-- Distinct cells give one framebuffer and one collision in every order. -/
theorem Grid.draw_perm (h : ps.Perm qs) (hqs : qs.Nodup) (g : Grid) : g.draw ps = g.draw qs := by
  have hps : ps.Nodup := h.nodup_iff.2 hqs
  apply Prod.ext
  · apply Grid.ext_cell
    intro c r
    simp only [Grid.draw_cell hps, Grid.draw_cell hqs, h.mem_iff]
  · rw [Grid.draw_collide hps, Grid.draw_collide hqs, h.any_eq]

end

/-- Settles O32: `spriteCell_inj` for the pixels, and `Grid.draw_perm` for their order. -/
theorem drawDoesNotDependOnPixelOrder : Obligations.DrawDoesNotDependOnPixelOrder := by
  refine ⟨fun x0 y0 c c' r r' hc hc' hr hr' he => ?_, fun x0 y0 rows hlen => ?_⟩
  · exact spriteCell_inj hc hc' (by omega) (by omega) he
  · have hcells : (spriteCells x0 y0 0 rows).Nodup := spriteCells_nodup x0 y0 0 rows (by omega)
    refine ⟨hcells, fun g ps hps => ?_⟩
    rw [Grid.draw_perm hps hcells]
    exact ⟨rfl, Grid.draw_cell hcells g, Grid.draw_collide_iff hcells g⟩

/-! ### A draw of the sprite at I (R120, R121, R123, R125) -/

/-- The state after DRW has drawn the sprite of n rows at I; `exec_drw_of_fits` says when it does. -/
def State.drawSprite (s : State) (x y : Reg) (n : Nibble) : State :=
  s.drawRows x y (s.mem.readBytes s.idx.toNat n.toNat)

section
variable {s : State} {x y : Reg} {n : Nibble} {c : Col} {r : Row}

theorem exec_drw_of_fits (hfit : s.accessFits n.toNat) :
    exec (.drw x y n) s = .next (s.drawSprite x y n) :=
  exec_of_load_fits (use := s.drawRows x y) rfl hfit

theorem length_spriteRows_le (m : Memory) (a : Nat) (n : Nibble) :
    (m.readBytes a n.toNat).length ≤ 32 := by
  have hn : n.toNat < 16 := n.isLt
  rw [Memory.length_readBytes]
  omega

/-- A cell under the sprite is inverted. -/
theorem State.drawSprite_cell_of_under (h : s.underSprite x y n.toNat c r) :
    (s.drawSprite x y n).cell c r = !s.cell c r := by
  have hmem := (mem_spriteCells_iff_underSprite s x y n.toNat c r).2 h
  rw [State.drawSprite, State.drawRows_cell s x y (length_spriteRows_le ..), decide_eq_true hmem,
    Bool.xor_true]

theorem State.drawSprite_cell_of_not_under (h : ¬s.underSprite x y n.toNat c r) :
    (s.drawSprite x y n).cell c r = s.cell c r := by
  have hmem := mt (mem_spriteCells_iff_underSprite s x y n.toNat c r).1 h
  rw [State.drawSprite, State.drawRows_cell s x y (length_spriteRows_le ..), decide_eq_false hmem,
    Bool.xor_false]

/-- The cells a draw turns off are the cells under the sprite that were on. -/
theorem State.drawSprite_turnsOff_iff :
    s.cell c r = true ∧ (s.drawSprite x y n).cell c r = false ↔
      s.underSprite x y n.toNat c r ∧ s.cell c r = true := by
  by_cases h : s.underSprite x y n.toNat c r
  · simp [State.drawSprite_cell_of_under h, h]
  · simp [State.drawSprite_cell_of_not_under h, h]

/-- VF after a draw is 1 exactly when a cell under the sprite was on, in whatever form `P` says so. -/
theorem State.drawSprite_flag {P : Prop}
    (hP : P ↔ ∃ c r, s.underSprite x y n.toNat c r ∧ s.cell c r = true) :
    (P → (s.drawSprite x y n).reg regF = 1) ∧ (¬P → (s.drawSprite x y n).reg regF = 0) := by
  have hcollide : P ↔ ((spriteCells (s.reg x) (s.reg y) 0 (s.mem.readBytes s.idx.toNat n.toNat)).any
      fun p => s.fb.cell p.1 p.2) = true := by
    simp only [hP, Grid.any_cell_iff, mem_spriteCells_iff_underSprite, State.cell]
  rw [State.drawSprite, State.drawRows_flag s x y (length_spriteRows_le ..)]
  exact ⟨fun h => if_pos (hcollide.1 h), fun h => if_neg (mt hcollide.2 h)⟩

end

/-- Settles O30: the cells and VF after `State.drawSprite`, or the fault of the load. -/
theorem drawInvertsTheSpritesCells : Obligations.DrawInvertsTheSpritesCells := by
  intro x y n s
  refine ⟨hasWord_of_wf rfl (layoutXYN_toNat 0xD x y n), fun hlast => ?_, fun hn hbad => ?_⟩
  · obtain ⟨hone, hzero⟩ := State.drawSprite_flag (s := s) (x := x) (y := y) (n := n)
      (exists₂_congr fun _ _ => State.drawSprite_turnsOff_iff)
    exact ⟨_, exec_drw_of_fits (State.accessFits_iff.2 hlast),
      fun _ _ => ⟨State.drawSprite_cell_of_under, State.drawSprite_cell_of_not_under⟩, hone, hzero,
      changesOnly_drawRows s x y _⟩
  · exact exec_of_load_faults rfl (State.not_accessFits hn hbad)

/-! ### The same sprite drawn twice (R125) -/

section
variable {s : State} {x y : Reg} {n : Nibble}
  (hx : (s.drawSprite x y n).reg x = s.reg x) (hy : (s.drawSprite x y n).reg y = s.reg y)
include hx hy

/-- A draw that leaves its two operands leaves the place of the sprite. -/
theorem State.underSprite_drawSprite (c : Col) (r : Row) :
    (s.drawSprite x y n).underSprite x y n.toNat c r ↔ s.underSprite x y n.toNat c r := by
  unfold State.underSprite
  rw [hx, hy]
  rfl

theorem State.drawSprite_drawSprite_fb : ((s.drawSprite x y n).drawSprite x y n).fb = s.fb := by
  apply Grid.ext_cell
  intro c r
  change State.cell _ c r = s.cell c r
  have hplace := State.underSprite_drawSprite hx hy c r
  by_cases h : s.underSprite x y n.toNat c r
  · rw [State.drawSprite_cell_of_under (hplace.2 h), State.drawSprite_cell_of_under h, Bool.not_not]
  · rw [State.drawSprite_cell_of_not_under (mt hplace.1 h), State.drawSprite_cell_of_not_under h]

/-- The cells on under the sprite after a draw are those that were off before it. -/
theorem State.under_on_drawSprite_iff (c : Col) (r : Row) :
    (s.drawSprite x y n).underSprite x y n.toNat c r ∧ (s.drawSprite x y n).cell c r = true ↔
      s.underSprite x y n.toNat c r ∧ s.cell c r = false := by
  rw [State.underSprite_drawSprite hx hy]
  apply and_congr_right
  intro h
  rw [State.drawSprite_cell_of_under h, Bool.not_eq_true']

end

/-- Settles O31: the second draw inverts the same cells back, and collides with those the first
turned on. -/
theorem drawTwiceRestoresTheFramebuffer : Obligations.DrawTwiceRestoresTheFramebuffer := by
  intro x y n s t hexec hlast hx hy
  have hfit : s.accessFits n.toNat := State.accessFits_iff.2 hlast
  obtain rfl : s.drawSprite x y n = t := by
    rw [exec_drw_of_fits hfit] at hexec
    injection hexec
  have hflag := State.drawSprite_flag
    (exists₂_congr fun c r => (State.under_on_drawSprite_iff hx hy c r).symm)
  exact ⟨_, exec_drw_of_fits hfit, State.drawSprite_drawSprite_fb hx hy, hflag⟩

end Sys2Proof.Machine
end

section
/-! SUPPORT. What one call of the host can do to the state, said once: `CallEffect` lists the shapes of
the state after a call, and `hostCall_effect` says that there is no other. From it: which calls change
the timers and the run state, and the statements about keys and timers (R135 to R142, R160, R162). -/

namespace Sys2Proof.Machine

/-! ### `deliver_key` (R162) -/

theorem State.deliverKey_press_of_awaiting {s : State} {d : Reg} (h : s.run = .awaitingKey d) (k : Key) :
    s.deliverKey k true = State.setReg { s.setKey k true with run := .running } d (keyByte k) := by
  simp only [State.deliverKey, State.resumeWith, State.setKey_run, h, if_true]

theorem State.deliverKey_press_of_not_awaiting {s : State} (h : ∀ d, s.run ≠ .awaitingKey d) (k : Key) :
    s.deliverKey k true = s.setKey k true := by
  cases hrun : s.run with
  | awaitingKey d => exact absurd hrun (h d)
  | running | faulted => simp only [State.deliverKey, State.resumeWith, State.setKey_run, hrun, if_true]

theorem keyByte_toNat (k : Key) : (keyByte k).toNat = k.val := by
  have hk := k.isLt
  rw [keyByte, BitVec.toNat_ofNat]
  omega

/-- A press ends the wait, with its code in the recorded register and its latch set (R136). -/
theorem State.resumed_by_press {s : State} {d : Reg} (h : s.run = .awaitingKey d) (k : Key) :
    (s.deliverKey k true).run = .running ∧ ((s.deliverKey k true).reg d).toNat = k.val ∧
      (s.deliverKey k true).key k = true := by
  rw [State.deliverKey_press_of_awaiting h]
  refine ⟨rfl, ?_, ?_⟩
  · rw [State.reg_setReg_self, keyByte_toNat]
  · exact (s.key_setKey k k true).trans (if_pos rfl)

/-! ### The effect of a call -/

/-- The states that the call `c`, made at `s`, can lead to: one constructor per kind of change. A read,
a refused load and a step of an engine that waits or has faulted change nothing. -/
inductive CallEffect (s : State) (c : HostCall) : State → Prop
  | nothing : CallEffect s c s
  | constructs : c = .construct → CallEffect s c s.reconstruct
  | loads (m : Memory) : ((∃ bs, c = .loadProgram bs) ∨ ∃ a bs, c = .loadBytes a bs) →
      (s.mem.wf = true → m.wf = true) → CallEffect s c { s with mem := m }
  | fetchFaults : c = .step → s.run = .running → 0xFFF ≤ s.pc.toNat →
      CallEffect s c (s.raise (s.fetchFault (max s.pc.toNat memorySize)))
  | passesUnknown : c = .step → s.run = .running → CallEffect s c s.advance
  | executes {t : State} (i : Instr) : c = .step → s.fetches i → Effect s.advance i t → CallEffect s c t
  | ticks : c = .tick → CallEffect s c s.tick
  | latches (k : Key) (b : Bool) : c = .deliverKey k b → (b = true → ∀ d, s.run ≠ .awaitingKey d) →
      CallEffect s c (s.setKey k b)
  | resumes (k : Key) (d : Reg) : c = .deliverKey k true → s.run = .awaitingKey d →
      CallEffect s c (State.setReg { s.setKey k true with run := .running } d (keyByte k))

section
variable {s t : State} {c : HostCall}

/-- A load writes memory, or is refused and changes nothing (R164, R165). -/
theorem CallEffect.hostLoad (a : Nat) (bs : List Byte)
    (hc : (∃ bs, c = .loadProgram bs) ∨ ∃ a bs, c = .loadBytes a bs) :
    CallEffect s c (s.hostLoad a bs).1 := by
  unfold State.hostLoad
  split
  case h_1 m hm => exact .loads m hc fun hwf => Memory.hostLoad_wf hwf hm
  case h_2 => exact .nothing

theorem CallEffect.deliverKey (k : Key) (b : Bool) (hc : c = .deliverKey k b) :
    CallEffect s c (s.deliverKey k b) := by
  cases b with
  | false => exact .latches k false hc nofun
  | true =>
    by_cases h : ∃ d, s.run = .awaitingKey d
    · obtain ⟨d, hd⟩ := h
      rw [State.deliverKey_press_of_awaiting hd]
      exact .resumes k d hc hd
    · have hno := not_exists.1 h
      rw [State.deliverKey_press_of_not_awaiting hno]
      exact .latches k true hc fun _ => hno

theorem CallEffect.step (h : step s = .next t) : CallEffect s .step t := by
  rcases step_cases s with ⟨-, hs⟩ | ⟨hrun, hpc, hs⟩ | ⟨hrun, -, -, hs⟩ | ⟨i, hi, hs⟩
  · cases hs.symm.trans h; exact .nothing
  · cases hs.symm.trans h; exact .fetchFaults rfl hrun hpc
  · cases hs.symm.trans h; exact .passesUnknown rfl hrun
  · exact .executes i rfl hi (exec_effect (hs.symm.trans h))

/-- Everything a call can do. -/
theorem hostCall_effect {r : Reply} (h : hostCall c s = .next (t, r)) : CallEffect s c t := by
  cases c with
  | construct => cases h; exact .constructs rfl
  | loadProgram bs =>
    have ht : (s.hostLoad programOrigin.toNat bs).1 = t := congrArg Prod.fst (Host.Outcome.next.inj h)
    exact ht ▸ .hostLoad _ bs (.inl ⟨bs, rfl⟩)
  | loadBytes a bs =>
    have ht : (s.hostLoad a bs).1 = t := congrArg Prod.fst (Host.Outcome.next.inj h)
    exact ht ▸ .hostLoad a bs (.inr ⟨a, bs, rfl⟩)
  | step =>
    obtain ⟨u, hu⟩ := step_next s
    cases (hostCall_step hu).symm.trans h
    exact .step hu
  | tick => cases h; exact .ticks rfl
  | deliverKey k b => cases h; exact .deliverKey k b rfl
  | readRegister | readIndex | readPc | readByte | readWord | readFramebuffer => cases h; exact .nothing

/-! ### The calls that change the timers and the run state -/

theorem CallEffect.dt_ne (he : CallEffect s c t) (hne : t.dt ≠ s.dt) :
    c = .tick ∨ c = .construct ∨ (c = .step ∧ ∃ x, s.fetches (.ldDT x)) := by
  cases he with
  | ticks hc => exact .inl hc
  | constructs hc => exact .inr (.inl hc)
  | executes i hc hi he =>
    obtain ⟨x, rfl⟩ := he.dt_ne hne
    exact .inr (.inr ⟨hc, x, hi⟩)
  | _ => exact absurd rfl hne

theorem CallEffect.st_ne (he : CallEffect s c t) (hne : t.st ≠ s.st) :
    c = .tick ∨ c = .construct ∨ (c = .step ∧ ∃ x, s.fetches (.ldST x)) := by
  cases he with
  | ticks hc => exact .inl hc
  | constructs hc => exact .inr (.inl hc)
  | executes i hc hi he =>
    obtain ⟨x, rfl⟩ := he.st_ne hne
    exact .inr (.inr ⟨hc, x, hi⟩)
  | _ => exact absurd rfl hne

/-- `run` changes by a construction, by a step of a running engine into the wait or into a fault, or by
a press out of the wait. -/
theorem CallEffect.run_ne (he : CallEffect s c t) (hne : t.run ≠ s.run) :
    (c = .construct ∧ t.run = .running) ∨
    (∃ x, c = .step ∧ s.fetches (.ldVxK x) ∧ t.run = .awaitingKey x) ∨
    (∃ f, c = .step ∧ s.run = .running ∧ t.run = .faulted f) ∨
    (∃ k d, c = .deliverKey k true ∧ s.run = .awaitingKey d ∧ t = s.deliverKey k true) := by
  cases he with
  | constructs hc => exact .inl ⟨hc, rfl⟩
  | fetchFaults hc hrun _ => exact .inr (.inr (.inl ⟨_, hc, hrun, rfl⟩))
  | executes i hc hi he =>
    rcases he.run_ne hne with ⟨x, rfl, hx⟩ | ⟨k, addr, -, rfl⟩
    · exact .inr (.inl ⟨x, hc, hi, hx⟩)
    · exact .inr (.inr (.inl ⟨_, hc, hi.1, rfl⟩))
  | resumes k d hc hd =>
    exact .inr (.inr (.inr ⟨k, d, hc, hd, (State.deliverKey_press_of_awaiting hd k).symm⟩))
  | _ => exact absurd rfl hne

end

/-! ### The wait for a key (R136, R140) -/

/-- Settles O36: of the calls that change `run`, a step alone enters the wait, and a press alone, but
for a construction, leaves it. -/
theorem onlyAKeyPressEndsTheWait : Obligations.OnlyAKeyPressEndsTheWait := by
  refine ⟨?_, ?_, ?_, ?_, fun s d h => hostCall_step_of_awaiting h, ?_⟩
  · rintro s d ⟨hrun, hpc, hdec⟩
    exact ⟨_, _, hostCall_step (step_of_instr hrun hpc hdec), rfl⟩
  · intro s d k h
    exact ⟨_, _, rfl, State.resumed_by_press h k⟩
  · intro c s t r d h ht hs
    rcases (hostCall_effect h).run_ne (fun e => hs (e.symm.trans ht)) with
      ⟨-, hrun⟩ | ⟨x, hc, hx, hrun⟩ | ⟨f, -, -, hrun⟩ | ⟨k, e, -, he, rfl⟩
    · exact nomatch hrun.symm.trans ht
    · cases hrun.symm.trans ht
      exact ⟨hc, hx⟩
    · exact nomatch hrun.symm.trans ht
    · exact nomatch (State.resumed_by_press he k).1.symm.trans ht
  · intro c s t r d h hs ht hnew
    rcases (hostCall_effect h).run_ne (fun e => ht (e.trans hs)) with
      ⟨hc, -⟩ | ⟨x, -, hx, -⟩ | ⟨f, -, hrun, -⟩ | ⟨k, e, hc, he, rfl⟩
    · exact absurd hc hnew
    · exact nomatch hs.symm.trans hx.1
    · exact nomatch hs.symm.trans hrun
    · exact ⟨k, hc, State.resumed_by_press hs k⟩
  · intro c s t r f h ht hs
    rcases (hostCall_effect h).run_ne (fun e => hs (e.symm.trans ht)) with
      ⟨-, hrun⟩ | ⟨x, -, -, hrun⟩ | ⟨g, hc, hrun, -⟩ | ⟨k, e, -, he, rfl⟩
    · exact nomatch hrun.symm.trans ht
    · exact nomatch hrun.symm.trans ht
    · exact ⟨hc, hrun⟩
    · exact nomatch (State.resumed_by_press he k).1.symm.trans ht

/-! ### The tick (R160) -/

/-- A timer counted down stops at 0. -/
theorem countedDown_toNat (v : Byte) : (if v.toNat > 0 then v - 1 else v).toNat = v.toNat - 1 := by
  have hv := v.isLt
  split
  · rw [BitVec.toNat_sub, show (1 : Byte).toNat = 1 from rfl]
    omega
  · omega

theorem State.tick_dt_toNat (s : State) : s.tick.dt.toNat = s.dt.toNat - 1 := countedDown_toNat s.dt

theorem State.tick_st_toNat (s : State) : s.tick.st.toNat = s.st.toNat - 1 := countedDown_toNat s.st

theorem changesOnly_run (s : State) (v : RunState) : changesOnly s { s with run := v } fun p => p = .run := by
  intro p hp
  cases p with
  | run => exact absurd rfl hp
  | _ => rfl

/-- Settles O35: the wait is a write to `run` alone; step, tick and press by their lemmas. -/
theorem keyReadEntersTheWait : Obligations.KeyReadEntersTheWait := by
  intro x s
  refine ⟨hasWord_of_wf rfl (layoutF_toNat x 0x0A), _, rfl, rfl, changesOnly_run s _,
    hostCall_step_of_awaiting rfl, ?_, fun k => ?_⟩
  · exact ⟨_, rfl, rfl, State.tick_dt_toNat _, State.tick_st_toNat _⟩
  · have hwait : State.run { s with run := .awaitingKey x } = .awaitingKey x := rfl
    obtain ⟨hrun, hreg, hkey⟩ := State.resumed_by_press hwait k
    have hpc := congrArg State.pc (State.deliverKey_press_of_awaiting hwait k)
    exact ⟨_, rfl, hreg, hkey, hrun, hpc⟩

/-! ### The sound timer over a run of calls (R142) -/

section
variable {s t : State} {c : HostCall} {cs : List HostCall}

/-- In an undisturbed run a call that is no tick leaves the sound timer alone. -/
theorem soundUndisturbed_st_eq {r : Reply} (hu : soundUndisturbed (c :: cs) s)
    (h : hostCall c s = .next (t, r)) (hc : c ≠ .tick) : t.st = s.st := by
  obtain ⟨hnew, hstep, -⟩ := soundUndisturbed_cons h hu
  by_contra hne
  rcases (hostCall_effect h).st_ne hne with htick | hconstruct | ⟨hcs, x, hx⟩
  · exact hc htick
  · exact hnew hconstruct
  · exact hstep hcs x hx

theorem runCalls_st_of_soundUndisturbed (hu : soundUndisturbed cs s) :
    ∃ u, runCalls cs s = .next u ∧ u.st.toNat = s.st.toNat - cs.count .tick := by
  induction cs generalizing s with
  | nil => exact ⟨s, rfl, rfl⟩
  | cons c cs ih =>
    obtain ⟨t, r, h⟩ := hostCall_next c s
    obtain ⟨-, -, hrest⟩ := soundUndisturbed_cons h hu
    obtain ⟨u, hrun, hst⟩ := ih hrest
    refine ⟨u, (runCalls_cons h).trans hrun, hst.trans ?_⟩
    by_cases hc : c = .tick
    · subst hc
      cases h
      rw [State.tick_st_toNat, List.count_cons_self, Nat.sub_sub, Nat.add_comm]
    · rw [soundUndisturbed_st_eq hu h hc, List.count_cons_of_ne hc]

/-- The k-th tick reports sound as long as k is below the sound timer. -/
theorem tickReports_of_soundUndisturbed (hu : soundUndisturbed cs s) :
    tickReports cs s = (List.range (cs.count .tick)).map fun k => decide (k < s.st.toNat) := by
  induction cs generalizing s with
  | nil => rfl
  | cons c cs ih =>
    obtain ⟨t, r, h⟩ := hostCall_next c s
    obtain ⟨-, -, hrest⟩ := soundUndisturbed_cons h hu
    by_cases hc : c = .tick
    · subst hc
      cases h
      have hlater : ∀ k, decide (k < s.tick.st.toNat) = decide (k + 1 < s.st.toNat) := fun k => by
        rw [State.tick_st_toNat, decide_eq_decide]
        omega
      rw [tickReports_tick, ih hrest, List.count_cons_self, List.range_succ_eq_map, List.map_cons,
        List.map_map]
      simp only [hlater]
      rfl
    · rw [tickReports_cons h hc, ih hrest, soundUndisturbed_st_eq hu h hc, List.count_cons_of_ne hc]

end

theorem changesOnly_st (s : State) (v : Byte) : changesOnly s { s with st := v } fun p => p = .st := by
  intro p hp
  cases p with
  | st => exact absurd rfl hp
  | _ => rfl

/-- Settles O38: induction over the calls, each a tick or one that leaves the sound timer alone. -/
theorem soundLastsAsManyTicksAsST : Obligations.SoundLastsAsManyTicksAsST := by
  intro x s
  exact ⟨hasWord_of_wf rfl (layoutF_toNat x 0x18), _, rfl, rfl, changesOnly_st s _, fun cs hu =>
    ⟨runCalls_st_of_soundUndisturbed hu, tickReports_of_soundUndisturbed hu⟩⟩

/-! ### The delay timer and the key skips (R135, R137 to R139, R141) -/

theorem changesOnly_dt (s : State) (v : Byte) : changesOnly s { s with dt := v } fun p => p = .dt := by
  intro p hp
  cases p with
  | dt => exact absurd rfl hp
  | _ => rfl

/-- Settles O34: a register write, a write of the timer, and the calls whose effect changes it. -/
theorem delayTimerTransfers : Obligations.DelayTimerTransfers := by
  intro x s
  refine ⟨?_, ?_, ?_, ?_, fun c t r h => (hostCall_effect h).dt_ne⟩
  · exact hasWord_of_wf rfl (layoutF_toNat x 0x07)
  · exact writesRegister_of_setReg rfl
  · exact hasWord_of_wf rfl (layoutF_toNat x 0x15)
  · exact ⟨_, rfl, rfl, changesOnly_dt s _⟩

/-- A word of family E as R50 writes it, the sub-opcode byte in front. -/
theorem layoutE_toNat (x : Reg) (kk : Byte) :
    (layoutXK 0xE x kk).toNat = 0xE000 + kk.toNat + 0x100 * x.val := by
  have hfamily : (0xE : Nibble).toNat = 14 := rfl
  rw [layoutXK_toNat, hfamily]
  omega

/-- A value names the key with its number; above 15 there is none (R135). -/
theorem State.keyPressed_iff (s : State) (v : Byte) :
    s.keyPressed v = true ↔ ∃ k : Key, k.val = v.toNat ∧ s.key k = true := by
  unfold State.keyPressed
  split
  case isTrue h =>
    refine ⟨fun hkey => ⟨⟨v.toNat, h⟩, rfl, hkey⟩, ?_⟩
    rintro ⟨k, hk, hkey⟩
    rwa [show (⟨v.toNat, h⟩ : Key) = k from Fin.ext hk.symm]
  case isFalse h =>
    refine iff_of_false nofun ?_
    rintro ⟨k, hk, -⟩
    exact h (hk ▸ k.isLt)

/-- Settles O33: both are `skipIf` at `keyPressed`, plain and negated. -/
theorem keySkips : Obligations.KeySkips := by
  intro x s
  have hpressed := s.keyPressed_iff (s.reg x)
  refine ⟨?_, ?_, ?_, ?_⟩
  · exact hasWord_of_wf rfl (layoutE_toNat x 0x9E)
  · exact skipsNextWhen_of_skipIf rfl hpressed
  · exact hasWord_of_wf rfl (layoutE_toNat x 0xA1)
  · exact skipsNextWhen_of_skipIf rfl (by rw [Bool.not_eq_true', ← Bool.not_eq_true, hpressed])

end Sys2Proof.Machine
end

section
/-! SUPPORT. Faults, runs of host calls and the host interface: what a fault of a step is made of, that
no call breaks the invariant and none but a construction moves a faulted engine, what a load, a tick, a
key event and an accessor do, and the statements that say it (R150 to R153, R160 to R167). -/

namespace Sys2Proof.Machine

/-! ### The invariant over a run of calls (R39, R161, R163) -/

section
variable {s t : State} {c : HostCall}

/-- A new engine in place of one whose stack is within its depth meets the invariant. -/
theorem State.reconstruct_inv (h : s.stackOk = true) : s.reconstruct.inv = true := by
  have hstack : s.reconstruct.stackOk = true :=
    State.stackOk_of_length_le (s := s) rfl (Nat.zero_le _) h
  exact State.inv_iff.2 ⟨Memory.constructed_wf s.params.font, hstack, State.runOk_of_running rfl⟩

/-- Every call keeps the invariant. What a tick, a key event or a load changes is no part of the stack
bound or of a fault's record. -/
theorem CallEffect.inv (he : CallEffect s c t) (h : s.inv = true) : t.inv = true := by
  obtain ⟨hmem, hstack, hrun⟩ := State.inv_iff.1 h
  cases he with
  | nothing => exact h
  | constructs _ => exact State.reconstruct_inv hstack
  | loads m _ hm => exact State.inv_iff.2 ⟨hm hmem, hstack, hrun⟩
  | fetchFaults _ _ hpc => exact State.inv_iff.2 ⟨hmem, hstack, State.runOk_fetchFault hpc⟩
  | passesUnknown _ hs => exact State.inv_iff.2 ⟨hmem, hstack, State.runOk_of_running hs⟩
  | executes i _ hi he =>
    exact State.inv_iff.2 ⟨he.mem_wf hmem, he.stackOk hstack, he.runOk hi⟩
  | ticks _ => exact State.inv_iff.2 ⟨hmem, hstack, hrun⟩
  | latches k b _ _ => exact State.inv_iff.2 ⟨hmem, hstack, hrun⟩
  | resumes k d _ _ => exact State.inv_iff.2 ⟨hmem, hstack, State.runOk_of_running rfl⟩

end

/-- Settles O46, by induction over the calls. -/
theorem everyRunOfCallsKeepsTheInvariant : Obligations.EveryRunOfCallsKeepsTheInvariant := by
  intro cs
  induction cs with
  | nil => exact fun s h => ⟨s, rfl, h⟩
  | cons c cs ih =>
    intro s h
    obtain ⟨t, r, hc⟩ := hostCall_next c s
    obtain ⟨u, hu, hinv⟩ := ih t ((hostCall_effect hc).inv h)
    exact ⟨u, (runCalls_cons hc).trans hu, hinv⟩

/-! ### What a fault of a step is made of (R150, R151, R153) -/

/-- A step of a running engine that ends in a fault faulted at the fetch, or by the instruction it
fetched for a cause of that instruction. -/
theorem step_fault_cases {s t : State} {f : FaultRecord} (hrun : s.run = .running)
    (h : step s = .next t) (ht : t.run = .faulted f) :
    (0xFFF ≤ s.pc.toNat ∧ f = s.fetchFault (max s.pc.toNat memorySize) ∧ t = s.raise f) ∨
    ∃ i k addr, s.fetches i ∧ FaultCause s.advance i k addr ∧
      f = s.advance.execFault k i addr ∧ t = s.advance.raise f := by
  rcases step_cases s with ⟨hne, -⟩ | ⟨-, hpc, hs⟩ | ⟨-, -, -, hs⟩ | ⟨i, hi, hs⟩
  · exact absurd hrun hne
  · cases hs.symm.trans h
    cases ht
    exact .inl ⟨hpc, rfl, rfl⟩
  · cases hs.symm.trans h
    exact nomatch hrun.symm.trans ht
  · have he : Effect s.advance i t := exec_effect (hs.symm.trans h)
    have hne : t.run ≠ s.advance.run := fun e => nomatch hrun.symm.trans (e.symm.trans ht)
    rcases he.run_ne hne with ⟨x, -, hx⟩ | ⟨k, addr, hcause, rfl⟩
    · exact nomatch hx.symm.trans ht
    · cases ht
      exact .inr ⟨i, k, addr, hi, hcause, rfl, rfl⟩

/-- Settles O7: both kinds of fault write `run` alone, over the advance of pc if the word was
fetched. -/
theorem faultsArePrecise : Obligations.FaultsArePrecise := by
  intro s t f hrun h ht
  rcases step_fault_cases hrun h ht with ⟨hpc, rfl, rfl⟩ | ⟨i, k, addr, hi, -, rfl, rfl⟩
  · exact ⟨rfl, rfl, hostCall_step_of_fetch_fault hrun hpc, .inl ⟨rfl, rfl⟩⟩
  · have hreply := hostCall_step h
    rw [stepResult_of_instr_faulted hi ht] at hreply
    obtain ⟨-, hpc, hdec⟩ := hi
    have hopPc : s.pc + 2 - 2 = s.pc := BitVec.add_sub_cancel s.pc 2
    exact ⟨rfl, hopPc, hreply, .inr ⟨hpc, congrArg some (encode_of_decode hdec), rfl⟩⟩

/-- Settles O8: the fetch, or the three causes of an instruction's fault; a bad address has its
instruction among the four that access memory at I. -/
theorem eachFaultHasItsCause : Obligations.EachFaultHasItsCause := by
  intro s t f hrun h ht
  rcases step_fault_cases hrun h ht with ⟨hpc, rfl, -⟩ | ⟨i, k, addr, hi, hcause, rfl, -⟩
  · exact .inl ⟨hpc, rfl, rfl, rfl⟩
  · refine .inr ⟨i, hi, rfl, ?_⟩
    cases hcause with
    | overflow nnn hfull => exact ⟨rfl, rfl, s.advance.stackFull_iff.1 hfull⟩
    | underflow hempty => exact ⟨rfl, rfl, hempty⟩
    | badAddress _ b hb =>
      obtain ⟨hn, hlast, rfl⟩ := firstOutOfRange_some hb
      have hbad : 0xFFF < s.idx.toNat + accessCount s.params i - 1 := Nat.le_sub_one_of_lt hlast
      cases i with
      | drw | ldStore | ldLoad => exact ⟨rfl, hn.ne', hbad, rfl⟩
      | ldB => exact ⟨rfl, hbad, rfl⟩
      | _ => exact absurd hn (Nat.lt_irrefl 0)

/-! ### Loads (R164, R165) -/

section
variable {s : State} {a : Nat} {bs : List Byte}

theorem State.hostLoad_of_fits (h : a + bs.length ≤ memorySize) :
    s.hostLoad a bs = ({ s with mem := s.mem.writeBytes a bs }, .ok) := by
  rw [State.hostLoad, Memory.hostLoad, if_pos h]

theorem State.hostLoad_of_not_fits (h : ¬a + bs.length ≤ memorySize) : s.hostLoad a bs = (s, .refused) := by
  rw [State.hostLoad, Memory.hostLoad, if_neg h]

end

/-- Settles O40: both calls are `State.hostLoad`, which fits or is refused. -/
theorem loadsWriteAllOrNothing : Obligations.LoadsWriteAllOrNothing := by
  intro s a bytes hm c hc
  have hcall : hostCall c s = .next (s.hostLoad a bytes) := by
    rcases hc with rfl | ⟨rfl, rfl⟩
    · rfl
    · rfl
  refine ⟨fun hfit => ?_, fun hbad => ?_⟩
  · refine ⟨_, hcall.trans (congrArg _ (State.hostLoad_of_fits hfit)), fun i hi => ?_,
      changesOnly_writeBytes hm hfit⟩
    exact (Memory.readByte_writeBytes_add hm hfit hi).trans (List.getD_eq_getElem bytes 0 hi)
  · exact hcall.trans (congrArg _ (State.hostLoad_of_not_fits (Nat.not_le.2 hbad)))

/-! ### Ticks and key events (R160, R162) -/

theorem changesOnly_tick (s : State) :
    changesOnly s s.tick fun p => p = .soundActive ∨ p = .st ∨ p = .dt := by
  intro p hp
  cases p with
  | soundActive => exact absurd (.inl rfl) hp
  | st => exact absurd (.inr (.inl rfl)) hp
  | dt => exact absurd (.inr (.inr rfl)) hp
  | _ => rfl

theorem State.tick_soundActive_iff (s : State) : s.tick.soundActive = true ↔ 0 < s.st.toNat :=
  decide_eq_true_iff

/-- Settles O37: the parts of `State.tick`. -/
theorem tickCountsBothTimersDown : Obligations.TickCountsBothTimersDown := by
  intro s
  exact ⟨s.tick, rfl, s.tick_soundActive_iff, s.tick_st_toNat, s.tick_dt_toNat, changesOnly_tick s⟩

theorem changesOnly_setKey (s : State) (k : Key) (b : Bool) :
    changesOnly s (s.setKey k b) fun p => p = .key k := by
  intro p hp
  cases p with
  | key q => exact (s.key_setKey k q b).trans (if_neg fun e => hp (congrArg Part.key e))
  | _ => rfl

/-- A press that ends a wait changes the latch, the register it answers and `run`. -/
theorem State.changesOnly_deliverKey_of_awaiting {s : State} {d : Reg} (h : s.run = .awaitingKey d)
    (k : Key) :
    changesOnly s (s.deliverKey k true) fun p => p = .key k ∨ p = .reg d ∨ p = .run := by
  rw [State.deliverKey_press_of_awaiting h]
  intro p hp
  cases p with
  | key q => exact changesOnly_setKey s k true _ fun e => hp (.inl e)
  | reg q => exact changesOnly_setReg _ d _ _ fun e => hp (.inr (.inl e))
  | run => exact absurd (.inr (.inr rfl)) hp
  | _ => rfl

/-- A release, and a press that ends no wait, set the latch and do nothing else. -/
theorem State.deliverKey_eq_setKey {s : State} {k : Key} {b : Bool}
    (h : b = false ∨ ∀ d, s.run ≠ .awaitingKey d) : s.deliverKey k b = s.setKey k b := by
  cases b with
  | false => rfl
  | true => exact State.deliverKey_press_of_not_awaiting (h.resolve_left nofun) k

theorem State.key_resumeWith (s : State) (k q : Key) : (s.resumeWith k).key q = s.key q := by
  unfold State.resumeWith
  split <;> rfl

theorem State.key_deliverKey_self (s : State) (k : Key) (b : Bool) : (s.deliverKey k b).key k = b := by
  have hlatch : (s.setKey k b).key k = b := (s.key_setKey k k b).trans (if_pos rfl)
  cases b with
  | false => exact hlatch
  | true => exact ((s.setKey k true).key_resumeWith k k).trans hlatch

/-- Settles O39: a press that ends a wait, or the latch alone. -/
theorem deliverKeySetsTheLatchAndResumes : Obligations.DeliverKeySetsTheLatchAndResumes := by
  intro s k b
  refine ⟨s.deliverKey k b, rfl, s.key_deliverKey_self k b, ?_, fun h => ?_⟩
  · rintro d rfl hd
    obtain ⟨hrun, hreg, -⟩ := State.resumed_by_press hd k
    exact ⟨hreg, hrun, State.changesOnly_deliverKey_of_awaiting hd k⟩
  · rw [State.deliverKey_eq_setKey h]
    exact changesOnly_setKey s k b

/-! ### A faulted engine (R152) -/

section
variable {s t : State} {f : FaultRecord}

/-- No call but a construction moves a faulted engine. -/
theorem CallEffect.of_faulted {c : HostCall} (he : CallEffect s c t) (hs : s.run = .faulted f)
    (hc : c ≠ .construct) :
    t.run = s.run ∧ t.pc = s.pc ∧ t.regs = s.regs ∧ t.idx = s.idx ∧ t.stack = s.stack ∧
      t.fb = s.fb := by
  cases he with
  | constructs hnew => exact absurd hnew hc
  | fetchFaults _ hrun _ | passesUnknown _ hrun => exact nomatch hrun.symm.trans hs
  | executes i _ hi _ => exact nomatch hi.1.symm.trans hs
  | resumes k d _ hd => exact nomatch hd.symm.trans hs
  | nothing | loads | ticks | latches => exact ⟨rfl, rfl, rfl, rfl, rfl, rfl⟩

theorem runCalls_of_faulted {cs : List HostCall} (hs : s.run = .faulted f) (hcs : .construct ∉ cs) :
    ∃ u, runCalls cs s = .next u ∧ u.run = .faulted f ∧ u.pc = s.pc ∧ u.regs = s.regs ∧
      u.idx = s.idx ∧ u.stack = s.stack ∧ u.fb = s.fb := by
  induction cs generalizing s with
  | nil => exact ⟨s, rfl, hs, rfl, rfl, rfl, rfl, rfl⟩
  | cons c cs ih =>
    obtain ⟨hc, hrest⟩ := List.ne_and_not_mem_of_not_mem_cons hcs
    obtain ⟨t, r, h⟩ := hostCall_next c s
    obtain ⟨hrun, hpc, hregs, hidx, hstack, hfb⟩ := (hostCall_effect h).of_faulted hs hc.symm
    rw [runCalls_cons h, ← hpc, ← hregs, ← hidx, ← hstack, ← hfb]
    exact ih (hrun.trans hs) hrest

end

/-- Settles O9: step, tick and key event by their rules, and the runs by `runCalls_of_faulted`. -/
theorem faultedStaysFaulted : Obligations.FaultedStaysFaulted := by
  intro s f hs
  refine ⟨hostCall_step_of_faulted hs, fun t r h => ?_, fun k b t r h => ?_,
    fun cs => runCalls_of_faulted hs, _, rfl, rfl⟩
  · cases h
    exact ⟨s.tick_dt_toNat, s.tick_st_toNat, s.tick_soundActive_iff⟩
  · cases h
    have hlatch := State.deliverKey_eq_setKey (k := k) (b := b) (.inr fun d hd => nomatch hs.symm.trans hd)
    exact ⟨s.key_deliverKey_self k b, hlatch ▸ changesOnly_setKey s k b⟩

/-! ### Accessors (R166, R167) -/

/-- Settles O41: each accessor answers what it reads, the word from its two bytes. -/
theorem accessorsReadWithoutEffect : Obligations.AccessorsReadWithoutEffect := by
  intro s
  exact ⟨fun _ => rfl, rfl, rfl, fun _ => rfl, fun a => ⟨_, rfl, readWord_toNat s.mem a.val⟩,
    s.fb, rfl, fun _ _ => rfl⟩

end Sys2Proof.Machine
end

section
/-! SUPPORT. Runs without a program and without end: the run of an engine with nothing loaded (R173), the
step at an ended state (R177), and what a host that calls without end brings about, from the conditions
on its calls (R175). -/

namespace Sys2Proof.Machine

/-! ### An engine with nothing loaded (R173) -/

/-- The word 0x0000 is SYS 0, which does nothing beyond the advance of fetch (R65). -/
theorem step_of_zero_word {s : State} (h : s.run = .running) (hp : s.pc.toNat ≤ 0xFFE)
    (hw : s.mem.readWord s.pc.toNat = 0) : step s = .next s.advance := by
  have hd : decode (s.mem.readWord s.pc.toNat) = .instr (.sys 0) := hw ▸ (by decide)
  exact step_of_instr h hp hd

/-- The reset state with pc past the first `k` words above the program origin. -/
def State.resetPast (k : Nat) : State := State.reset.setPc (BitVec.ofNat 16 (0x200 + 2 * k))

theorem State.resetPast_pc_toNat {k : Nat} (h : k ≤ 1792) :
    (State.resetPast k).pc.toNat = 0x200 + 2 * k := by
  rw [State.resetPast, State.setPc_pc, BitVec.toNat_ofNat]
  omega

theorem State.advance_resetPast (k : Nat) : (State.resetPast k).advance = State.resetPast (k + 1) :=
  congrArg State.reset.setPc (BitVec.ofNat_add (0x200 + 2 * k) 2).symm

/-- Above the font the memory of the reset state holds zero words (R32). -/
theorem Memory.readWord_reset {a : Nat} (h : 80 ≤ a) : State.reset.mem.readWord a = 0 := by
  have hinit : ∀ b, State.reset.mem.readByte b = Memory.initial b := State.reset_mem ▸ fun _ => rfl
  rw [Memory.readWord, hinit, hinit, Memory.initial_above h, Memory.initial_above (by omega)]
  rfl

theorem core_run_reset {k : Nat} (h : k ≤ 1792) :
    Host.Core.run core k State.reset = .next (State.resetPast k) := by
  induction k with
  | zero => rfl
  | succ k ih =>
    have hpc := State.resetPast_pc_toNat (k := k) (by omega)
    rw [core_run_snoc (ih (by omega)), ← State.advance_resetPast]
    exact step_of_zero_word rfl (by omega) (Memory.readWord_reset (by omega))

/-- Settles O43: a zero word at each of 1792 steps, and then a pc no word can be fetched from. -/
theorem emptyMemoryRunsToTheEndAndFaults : Obligations.EmptyMemoryRunsToTheEndAndFaults := by
  refine ⟨fun k hk => core_run_reset hk, ?_⟩
  have hend := State.resetPast_pc_toNat (Nat.le_refl 1792)
  exact (core_run_snoc (core_run_reset (Nat.le_refl 1792))).trans
    (step_of_fetch_fault rfl (by omega))

/-! ### The ends of a run (R177) -/

/-- An ended run is faulted or waiting, or the word at pc jumps to itself. -/
theorem State.ended_cases {s : State} {e : RunEnd} (h : s.ended = some e) :
    (∃ f, s.run = .faulted f) ∨ (∃ d, s.run = .awaitingKey d) ∨
      ∃ nnn, s.fetches (.jp nnn) ∧ zextAddr nnn = s.pc := by
  cases hrun : s.run with
  | faulted f => exact .inl ⟨f, rfl⟩
  | awaitingKey d => exact .inr (.inl ⟨d, rfl⟩)
  | running =>
    unfold State.ended at h
    rw [hrun, State.fetch_eq] at h
    by_cases hpc : s.pc.toNat ≤ 0xFFE
    · rw [if_pos hpc] at h
      dsimp only at h
      split at h
      case h_1 nnn hdec =>
        by_cases hself : zextAddr nnn = s.pc
        · exact .inr (.inr ⟨nnn, ⟨hrun, hpc, hdec⟩, hself⟩)
        · rw [if_neg hself] at h; cases h
      case h_2 => cases h
    · rw [if_neg hpc] at h; cases h

/-- A jump to its own address runs and stays (R67). -/
theorem step_of_self_jump {s : State} {nnn : Addr} (h : s.fetches (.jp nnn))
    (hself : zextAddr nnn = s.pc) : step s = .next s := by
  obtain ⟨hrun, hpc, hdec⟩ := h
  calc step s = .next (s.advance.setPc (zextAddr nnn)) := step_of_instr hrun hpc hdec
    _ = .next s := by rw [hself]; rfl

/-- Settles O49: one step lemma per end. -/
theorem stepsAtAnEndedStateChangeNothing : Obligations.StepsAtAnEndedStateChangeNothing := by
  intro s e h
  rcases State.ended_cases h with ⟨f, hf⟩ | ⟨d, hd⟩ | ⟨nnn, hjp, hself⟩
  · exact step_of_faulted hf
  · exact step_of_awaiting hd
  · exact step_of_self_jump hjp hself

/-! ### The delay timer under a host without end (R160, R161, R175) -/

section
variable {h : CallSequence} {s t : State} {n : Nat}

/-- How many of the host's first `n` calls are ticks. -/
def CallSequence.ticksBefore (h : CallSequence) (n : Nat) : Nat := Nat.count (h · = .tick) n

/-- A host that keeps ticking reaches any number of ticks. -/
theorem CallSequence.keepsTicking.exists_ticksBefore_eq (hf : h.keepsTicking) (k : Nat) :
    ∃ n, h.ticksBefore n = k :=
  have hinf : {n | h n = .tick}.Infinite :=
    Nat.frequently_atTop_iff_infinite.1 (Filter.frequently_atTop.2 hf)
  ⟨_, Nat.count_nth_of_infinite hinf k⟩

theorem CallSequence.ticksBefore_eq_zero (hno : ∀ n, h n ≠ .tick) (n : Nat) : h.ticksBefore n = 0 :=
  Nat.count_of_forall_not fun m _ => hno m

/-- In an undisturbed run a call that is no tick leaves the delay timer alone. -/
theorem CallSequence.delayUndisturbed.dt_eq {u : State} {r : Reply} (hu : h.delayUndisturbed s)
    (ht : h.runTo n s = .next t) (hc : hostCall (h n) t = .next (u, r)) (hno : h n ≠ .tick) :
    u.dt = t.dt := by
  obtain ⟨hkeeps, hsteps⟩ := hu
  by_contra hne
  rcases (hostCall_effect hc).dt_ne hne with htick | hnew | ⟨hstep, x, hx⟩
  · exact hno htick
  · exact hkeeps n hnew
  · exact hsteps n t ht hstep x hx

/-- In an undisturbed run each tick takes 1 from the delay timer down to 0, and no other call changes
it. -/
theorem CallSequence.delayUndisturbed.runTo_dt (hu : h.delayUndisturbed s) (n : Nat) :
    ∃ t, h.runTo n s = .next t ∧ t.dt.toNat = s.dt.toNat - h.ticksBefore n := by
  induction n with
  | zero => exact ⟨s, rfl, rfl⟩
  | succ n ih =>
    obtain ⟨t, ht, hdt⟩ := ih
    obtain ⟨u, r, hc⟩ := hostCall_next (h n) t
    refine ⟨u, CallSequence.runTo_succ ht hc, ?_⟩
    rw [CallSequence.ticksBefore] at hdt ⊢
    rw [Nat.count_succ]
    by_cases htick : h n = .tick
    · rw [if_pos htick]
      rw [htick] at hc
      cases hc
      rw [State.tick_dt_toNat, hdt, Nat.sub_sub]
    · rw [if_neg htick, hu.dt_eq ht hc htick, hdt, Nat.add_zero]

end

/-- Settles O50: the delay timer is what the ticks so far have left of it; a host that keeps ticking
reaches as many ticks as it held, one that never ticks reaches none. -/
theorem delayRunsOutUnderAHostThatKeepsTicking :
    Obligations.DelayRunsOutUnderAHostThatKeepsTicking := by
  constructor
  · intro h s hf hu
    obtain ⟨n, hn⟩ := hf.exists_ticksBefore_eq s.dt.toNat
    refine ⟨n, fun m hm => ?_⟩
    obtain ⟨t, ht, hdt⟩ := hu.runTo_dt m
    have hticks : h.ticksBefore n ≤ h.ticksBefore m := Nat.count_monotone _ hm
    refine ⟨t, ht, BitVec.eq_of_toNat_eq ?_⟩
    calc t.dt.toNat = s.dt.toNat - h.ticksBefore m := hdt
      _ = 0 := by omega
  · intro h s hno hu m
    obtain ⟨t, ht, hdt⟩ := hu.runTo_dt m
    rw [CallSequence.ticksBefore_eq_zero hno] at hdt
    exact ⟨t, ht, BitVec.eq_of_toNat_eq hdt⟩

/-! ### The wait for a key under a host without end (R136, R162, R175) -/

/-- A host that keeps the engine and presses no key leaves a waiting engine waiting. -/
theorem CallSequence.runTo_awaits {h : CallSequence} {s : State} {d : Reg} (hkeeps : h.keepsTheEngine)
    (hno : ¬h.pressesAKey) (hs : s.run = .awaitingKey d) (n : Nat) :
    ∃ t, h.runTo n s = .next t ∧ t.run = .awaitingKey d := by
  induction n with
  | zero => exact ⟨s, rfl, hs⟩
  | succ n ih =>
    obtain ⟨t, ht, hwait⟩ := ih
    obtain ⟨u, r, hc⟩ := hostCall_next (h n) t
    refine ⟨u, CallSequence.runTo_succ ht hc, ?_⟩
    obtain ⟨-, -, -, hleaves, -⟩ := onlyAKeyPressEndsTheWait
    by_contra hend
    obtain ⟨k, hpress, -⟩ := hleaves (h n) t u r d hc hwait hend (hkeeps n)
    exact hno ⟨n, k, hpress⟩

/-- Settles O51: a press ends the wait unless it had ended before; without a press it never ends. -/
theorem keyWaitEndsIffTheHostPressesAKey : Obligations.KeyWaitEndsIffTheHostPressesAKey := by
  intro h s d hkeeps hs
  constructor
  · rintro ⟨n, k, hpress⟩
    obtain ⟨t, ht⟩ := h.runTo_next n s
    by_cases hwait : t.run = .awaitingKey d
    · have hc : hostCall (h n) t = .next (t.deliverKey k true, .nothing) := by rw [hpress]; rfl
      obtain ⟨hrun, -, -⟩ := State.resumed_by_press hwait k
      exact ⟨n + 1, _, CallSequence.runTo_succ ht hc, fun e => nomatch hrun.symm.trans e⟩
    · exact ⟨n, t, ht, hwait⟩
  · rintro ⟨n, t, ht, hend⟩
    by_contra hno
    obtain ⟨u, hu, hwait⟩ := CallSequence.runTo_awaits hkeeps hno hs n
    cases ht.symm.trans hu
    exact hend hwait

end Sys2Proof.Machine
end
